-- ==== Sys2Proof/Word.lean ====
section
/-! DEFINITION. The words of CCSU: 32-bit register and command words, 8-bit samples (R5, R8, R25). -/

namespace Sys2Proof

/-- A register value, a command word or a frame-memory address: `XLEN` = `ADDR_BITS` = 32 bits (R5, R8, R38). -/
abbrev Word := BitVec 32

/-- One sample, one byte of frame memory: `SAMPLE_BITS` = 8 bits, unsigned (R5, R25). -/
abbrev Byte := BitVec 8

end Sys2Proof
end

