-- ==== Sys2Proof/Syntax.lean ====
section
/-! DEFINITION. The commands of CCSU, one constructor per row of spec/opcode_table.json (R41). -/

namespace Sys2Proof

/-- The two commands (R41). The immediates of `SUBSAMPLE` are the signed integers of R40; which integers have an
encoding is `Instr.wellFormed`. -/
inductive Instr where
  /-- `TOYCBCR` (R50): no immediate. -/
  | toycbcr
  /-- `SUBSAMPLE a, b` (R59). -/
  | subsample (a b : Int)
deriving DecidableEq, Repr

/-- The pseudo-instructions of R48: five more spellings of `SUBSAMPLE` words, named for the schemes 4:4:4 to 4:1:0. -/
inductive Pseudo where
  | ss444
  | ss422
  | ss420
  | ss411
  | ss410
deriving DecidableEq, Repr

/-- The expansion of a pseudo-instruction (table of R48). -/
def Pseudo.expand : Pseudo → Instr
  | .ss444 => .subsample 4 4
  | .ss422 => .subsample 2 2
  | .ss420 => .subsample 2 0
  | .ss411 => .subsample 1 1
  | .ss410 => .subsample 1 0

end Sys2Proof
end

