-- ==== Sys2Proof/WellFormed.lean ====
section
/-! DEFINITION. Which terms of `Instr` have an encoding (R40, R43, R47). -/

namespace Sys2Proof

/-- An integer that an immediate field holds: −128 to 127 (`IMM_BITS` = 8, two's complement: R5, R40). -/
def immFits (v : Int) : Bool := decide (-128 ≤ v) && decide (v ≤ 127)

/-- The commands an assembler accepts (R47): `subsample` with both operands in −128 to 127, whatever the hardware
then says of the pair. -/
def Instr.wellFormed : Instr → Bool
  | .toycbcr => true
  | .subsample a b => immFits a && immFits b

end Sys2Proof
end

