-- ==== Sys2Proof/Decode.lean ====
section
/-! DEFINITION. The command word: its fields, the total decoder and the encoder (R38 to R48). -/

namespace Sys2Proof

/-- Field `OPC`, bits [7:0] (R39). -/
def opcField (w : Word) : Byte := w.extractLsb' 0 8

/-- Field `A`, bits [15:8] (R39). -/
def aField (w : Word) : Byte := w.extractLsb' 8 8

/-- Field `B`, bits [23:16] (R39). -/
def bField (w : Word) : Byte := w.extractLsb' 16 8

/-- Field `RSV`, bits [31:24] (R39). -/
def rsvField (w : Word) : Byte := w.extractLsb' 24 8

/-- `sext_8` of R6 and R40: the signed integer a field of 8 bits holds. -/
def sext8 (f : Byte) : Int := if f.toNat < 128 then (f.toNat : Int) else (f.toNat : Int) - 256

/-- Why a word is reserved: the three conditions of R44. `STATUS` shows code 7 for each of them (R94; log 12). -/
inductive ReservedWord where
  /-- (ii): `w[31:24]` ≠ 0. -/
  | rsvNonzero
  /-- (iii): `w[7:0]` = `0x01` and `w[23:8]` ≠ 0. -/
  | toycbcrFieldsNonzero
  /-- (i): `w[7:0]` is neither `0x01` nor `0x02`. -/
  | noSuchOpcode
deriving DecidableEq, Repr

/-- The decoder of R44, its tests in the order R44 writes them. It is total on the 2^32 words. -/
def decode (w : Word) : Except ReservedWord Instr :=
  if rsvField w ≠ 0 then .error .rsvNonzero
  else if opcField w = 0x01 ∧ aField w = 0 ∧ bField w = 0 then .ok .toycbcr
  else if opcField w = 0x01 then .error .toycbcrFieldsNonzero
  else if opcField w = 0x02 then .ok (.subsample (sext8 (aField w)) (sext8 (bField w)))
  else .error .noSuchOpcode

/-- The 8-bit field that holds an immediate: `v mod 256` (R43). -/
def immField (v : Int) : Byte := BitVec.ofInt 8 v

/-- The word of R39 with the given fields: `OPC + 256·A + 65536·B + 16777216·RSV`. -/
def packWord (rsv b a opc : Byte) : Word := rsv ++ b ++ a ++ opc

/-- The encoder: the word of a command, of a well-formed one the only word that decodes to it (R42, R43). -/
def encode : Instr → Word
  | .toycbcr => packWord 0 0 0 0x01
  | .subsample a b => packWord 0 (immField b) (immField a) 0x02

/-- The assembler of R47: the word of a command, and no word for an operand outside −128 to 127. -/
def assemble (i : Instr) : Option Word := if i.wellFormed then some (encode i) else none

/-- The 32-bit command word made of the low `nbits` bits of `w`, every bit above them 0 (log 17). -/
def tableWord (nbits w : Nat) : Word := BitVec.ofNat 32 (w % 2 ^ nbits)

/-- The instruction the decoder reads from a row's bits, numbered as spec/opcode_table.json numbers them: a command
is one 32-bit word with bit 0 its least significant bit (R38, R39). -/
def decodeTableWord (nbits w : Nat) : Option Instr :=
  match decode (tableWord nbits w) with
  | .ok i => some i
  | .error _ => none

end Sys2Proof
end

