-- ==== Sys2Proof/Config.lean ====
section
/-! DEFINITION. What an instance of CCSU fixes for its life (R5, R22), and the free values the spec leaves open. -/

namespace Sys2Proof

/-- `ROUND_TIE`, what `rdiv` does with an exact half (R5, R6): the two values the document admits (U1). -/
inductive RoundTie where
  | halfUp
  | halfEven
deriving DecidableEq, Repr

/-- The parameters of one instance (R5, R22). `MEM_SIZE` is held as the last address that exists, because every
32-bit word is one and every legal `MEM_SIZE` (1 to 2^32) has one. DESIGN CHOICE (log 2), safe. -/
structure Params where
  /-- `MEM_SIZE` − 1. -/
  lastAddr : Word
  /-- `ROUND_TIE`. -/
  roundTie : RoundTie
deriving DecidableEq, Repr

/-- `MEM_SIZE`: frame-memory addresses 0 to `MEM_SIZE` − 1 exist, 1 ≤ `MEM_SIZE` ≤ 2^32 (R5, R25). -/
def Params.memSize (p : Params) : Nat := p.lastAddr.toNat + 1

/-- The OPEN parameter `MEM_SIZE` (R5, D3) of the instance that `State.reset` stands for, less one.
A free value: nothing constrains it. DESIGN CHOICE (log 2), safe. -/
opaque Config.lastAddr : Word

/-- The byte of frame memory at an address that nothing has written since the given power-on (R104, U5): a definite
byte, the same on every read until it is written, which the spec does not fix. A free value (log 4), safe. -/
opaque Config.powerOnByte : (powerUps : Nat) → (addr : Nat) → Byte

/-- The parameters of the instance that `State.reset` stands for: any `MEM_SIZE`, and `ROUND_TIE` = `HALF_UP`
as R5 fixes it (D10; log 3). -/
def Config.params : Params := ⟨Config.lastAddr, .halfUp⟩

end Sys2Proof
end

