-- ==== Sys2Proof/Machine/Arith.lean ====
section
/-! DEFINITION. The integer functions of R6. `/` and `%` on Nat, and on Int by a positive divisor, are the `div` (floor)
and `mod` of R6. -/

namespace Sys2Proof.Machine

open Sys2Proof

/-- `ceil_div(x, y)` of R6: the least integer that is at least x / y. -/
def ceilDiv (x y : Nat) : Nat := (x + y - 1) / y

/-- `even_up(x)` of R6: x rounded up to an even number. -/
def evenUp (x : Nat) : Nat := x + x % 2

/-- `clamp8(v)` of R6, before it is stored in a byte: `max(0, min(255, v))`. -/
def clamp8 (v : Int) : Int := max 0 (min 255 v)

/-- The byte that holds `clamp8(v)`. -/
def clampByte (v : Int) : Byte := BitVec.ofNat 8 (clamp8 v).toNat

/-- `rdiv(n, d)` of R6: n / d, for d > 0, to the nearest integer; an exact half goes to the larger neighbour under
`HALF_UP` and to the even one under `HALF_EVEN`. -/
def rdiv (tie : RoundTie) (n d : Int) : Int :=
  match tie with
  | .halfUp => (2 * n + d) / (2 * d)
  | .halfEven =>
    if (2 * n) % (2 * d) = d then
      if (n / d) % 2 = 0 then n / d else n / d + 1
    else (2 * n + d) / (2 * d)

/-- `DF(s)` of R6 and R62: the divide factor of a sampling parameter. It is defined for 4, 2, 1 and 0 and for no
other argument (U4). -/
def divideFactor (s : Int) : Option Nat :=
  if s = 4 then some 1
  else if s = 2 then some 2
  else if s = 1 then some 4
  else if s = 0 then some 0
  else none

end Sys2Proof.Machine
end

