-- ==== Sys2Proof/Machine/State.lean ====
section
/-! DEFINITION. The state of CCSU (R7, R8, R25), what stops a step, and the state after reset (R23, R103). -/

namespace Sys2Proof.Machine

open Sys2Proof

/-- Frame memory: the bytes that have been written since power-on, by address, strictly rising (`Memory.wf`). An
address that is not listed has not been written, and reads as its power-on byte (R25, R104; log 4). -/
abbrev Memory := List Host.Cell

/-- The events of the outside world, each indivisible and only ever between commands (R33, R79, R102). -/
inductive Event where
  /-- `wr i, v`: the host writes register `i` (R80). -/
  | wr (i : Nat) (v : Word)
  /-- `rd i`: the host reads register `i` (R81). -/
  | rd (i : Nat)
  /-- `mwr addr, v`: the host writes one byte of frame memory (R82). -/
  | mwr (addr : Word) (v : Byte)
  /-- `mrd addr`: the host reads one byte of frame memory (R83). -/
  | mrd (addr : Word)
  /-- The platform asserts reset without a power-on: `MEM` keeps its bytes (R102, R104). -/
  | reset
  /-- The platform powers the block on: every byte of `MEM` is unspecified afresh (R102, R104; log 5). -/
  | powerOn
deriving DecidableEq, Repr

/-- What a read transaction returned to the host (R81, R83). -/
inductive Answer where
  /-- The 32-bit value of a `rd`. -/
  | word (v : Word)
  /-- The byte of a `mrd`. -/
  | byte (v : Byte)
deriving DecidableEq, Repr

/-- The state: the register file of R8 (`CMD` stores nothing, R11, so it has no field) and the frame memory of R25,
which are the whole architectural state (R7); then the model's own fields, which INVENTORY.md lists apart. -/
structure State where
  /-- `SRC`, x[0]: byte address of the source array (R8, R9). -/
  src : Word
  /-- `DST`, x[1]: byte address of the destination array (R8, R9). -/
  dst : Word
  /-- `HEIGHT`, x[2]: rows of the source array (R8, R9). -/
  height : Word
  /-- `WIDTH`, x[3]: pixels per row of the source array (R8, R9). -/
  width : Word
  /-- `STATUS`, x[5]: `ERR` in bits [3:0], bits [31:4] zero (R12). -/
  status : Word
  /-- `BYTES`, x[6]: the byte count of a successful `SUBSAMPLE` (R13). -/
  bytes : Word
  /-- `OUT_H`, x[7] (R14). -/
  outH : Word
  /-- `OUT_W`, x[8] (R14). -/
  outW : Word
  /-- `MEM` (R25). -/
  mem : Memory
  /-- The model's own: the parameters of the instance, which no step changes (R5, R22; log 2). -/
  cfg : Params
  /-- The model's own: how many power-ons came before the present one; the free bytes are drawn with it (log 5). -/
  powerUps : Nat
  /-- The model's own: the events still to come, in the order of R33 (log 1). -/
  pending : List Event
  /-- The model's own: what reads have returned to the host, oldest first (log 8). -/
  answers : List Answer
deriving DecidableEq, Repr

/-- What would fault the machine: nothing. A command error is a next state (R85, R95), there are no traps or
interrupts (R97, R98), and a byte never written reads as some byte (R104). -/
inductive Fault where
deriving DecidableEq, Repr

/-- Why a step has no meaning. -/
inductive Refusal where
  /-- Raised by an arm of `exec` whose instruction has no meaning yet; no arm does. Safe. -/
  | notModelled (mnemonic : String)
  /-- Raised by a host `mwr` or `mrd` at an address at or above `MEM_SIZE`: there is no such byte, and the spec has
  the model refuse it (R82, R83, U6; log 7). Safe. -/
  | noSuchByte (addr : Word)
deriving DecidableEq, Repr

/-- The state after power-on (R23, R103, R104, R105): every register 0, no byte of `MEM` written, no transaction
performed; `MEM_SIZE` is any (log 2). -/
def State.reset : State :=
  { src := 0, dst := 0, height := 0, width := 0
    status := 0, bytes := 0, outH := 0, outW := 0
    mem := []
    cfg := Config.params
    powerUps := 0
    pending := []
    answers := [] }

end Sys2Proof.Machine
end

