-- ==== Sys2Proof/Machine/Operands.lean ====
section
/-! DEFINITION. The operands of a command: the four registers sampled at the `CMD` write (R9, R107), and the layout of
a PixelArray in frame memory (R26, R27). CCSU has no other operand form; the immediates are decoded in Decode.lean. -/

namespace Sys2Proof.Machine

open Sys2Proof

/-- The operands `src`, `dst`, `H`, `W` of a command, as unbounded integers (R9 (ii), R26). -/
structure Operands where
  src : Nat
  dst : Nat
  height : Nat
  width : Nat
deriving DecidableEq, Repr

/-- The four operand registers, read once, at the `CMD` write (R9 (ii)). -/
def sampleOperands (s : State) : Operands :=
  { src := s.src.toNat, dst := s.dst.toNat, height := s.height.toNat, width := s.width.toNat }

/-- `PA(base, w, r, c, k)` of R27: the address of sample `k` of the pixel at row `r`, column `c` of an array of row
width `w` at `base`. -/
def pixelAddr (base w r c k : Nat) : Nat := base + 3 * (r * w + c) + k

/-- The number of bytes of an (h, w, 3) array (R27). -/
def arrayLen (h w : Nat) : Nat := 3 * h * w

end Sys2Proof.Machine
end

