-- ==== Sys2Proof/Machine/Flags.lean ====
section
/-! DEFINITION. `STATUS` and the checks that decide it. CCSU has no condition codes (R17): the error code is the only
status a command computes (R12, R86 to R96). -/

namespace Sys2Proof.Machine

open Sys2Proof

/-- The causes of a command error (R86). -/
inductive CmdErr where
  /-- `E_SPEC_MAX`: a > 4 or b > 4 (R88). -/
  | specMax
  /-- `E_SPEC_NEG`: a ≤ 0 or b < 0 (R89). -/
  | specNeg
  /-- `E_SPEC_THREE`: a = 3 or b = 3 (R90). -/
  | specThree
  /-- `E_DIM`: H = 0 or W = 0 (R91). -/
  | dim
  /-- `E_ADDR`: a region that is not inside `MEM` (R92). -/
  | addr
  /-- `E_OVERLAP`: source and destination share a byte (R93). -/
  | overlap
  /-- `E_OPCODE`: a reserved command word (R94). -/
  | opcode
deriving DecidableEq, Repr

/-- The codes of R86. -/
def errCode : CmdErr → Nat
  | .specMax => 1
  | .specNeg => 2
  | .specThree => 3
  | .dim => 4
  | .addr => 5
  | .overlap => 6
  | .opcode => 7

/-- `STATUS` after a failed command: `ERR` = the code, bits [31:4] zero (R12, R95). -/
def errStatus (e : CmdErr) : Word := BitVec.ofNat 32 (errCode e)

/-- Field `ERR` of a `STATUS` value, bits [3:0] (R12). -/
def errField (status : Word) : Nat := status.toNat % 16

/-- The document's one error kind, InvalidSamplingSpec: codes 1 to 3 (R87). -/
def invalidSamplingSpec (status : Word) : Bool := decide (1 ≤ errField status ∧ errField status ≤ 3)

/-- The sampling checks of R60, in its order: the first that holds decides the code. -/
def samplingCheck (a b : Int) : Option CmdErr :=
  if 4 < a ∨ 4 < b then some .specMax
  else if a ≤ 0 ∨ b < 0 then some .specNeg
  else if a = 3 ∨ b = 3 then some .specThree
  else none

/-- The checks on the arrays that both commands make, in the order of R96: `E_DIM`, `E_ADDR`, `E_OVERLAP` (R91 to
R93), for a source of `slen` bytes and a destination of `dlen` bytes. Unbounded integers: nothing wraps (R26). -/
def arrayCheck (p : Params) (o : Operands) (slen dlen : Nat) : Option CmdErr :=
  if o.height = 0 ∨ o.width = 0 then some .dim
  else if p.memSize < o.src + slen ∨ p.memSize < o.dst + dlen then some .addr
  else if o.src < o.dst + dlen ∧ o.dst < o.src + slen then some .overlap
  else none

/-- The checks of `TOYCBCR` after decoding (R50, R96): its two regions have one length. -/
def toycbcrCheck (p : Params) (o : Operands) : Option CmdErr :=
  arrayCheck p o (arrayLen o.height o.width) (arrayLen o.height o.width)

/-- The checks of `SUBSAMPLE a, b` after decoding (R59, R96): the sampling checks come first, and the destination has
the padded size (R63). -/
def subsampleCheck (p : Params) (a b : Int) (o : Operands) : Option CmdErr :=
  match samplingCheck a b with
  | some e => some e
  | none => arrayCheck p o (arrayLen o.height o.width) (arrayLen (evenUp o.height) (evenUp o.width))

end Sys2Proof.Machine
end

