-- ==== Sys2Proof/Machine/Ops.lean ====
section
/-! DEFINITION. The operations the commands and the host share: frame memory by bytes (R25, R28), the register file
(R8, R15), the end of a command, failed (R95) or successful (R50, R59), reset (R102 to R104), and the counted loop. -/

namespace Sys2Proof.Machine

open Sys2Proof

/-! ### Frame memory -/

/-- The byte stored at an address since power-on, if any. -/
def Memory.lookup : Memory → Nat → Option Byte
  | [], _ => none
  | (k, v) :: rest, a => if a = k then some v else Memory.lookup rest a

/-- Store a byte at an address, keeping the addresses strictly rising. -/
def Memory.store : Memory → Nat → Byte → Memory
  | [], a, v => [(a, v)]
  | (k, u) :: rest, a, v =>
    if a < k then (a, v) :: (k, u) :: rest
    else if a = k then (a, v) :: rest
    else (k, u) :: Memory.store rest a v

/-- The canonical form: addresses strictly rising. An unlisted address has no stored byte, so no entry can equal what
it holds, and a written byte is always listed (log 4). -/
def Memory.wf : Memory → Bool
  | [] => true
  | [_] => true
  | (k, _) :: (l, u) :: rest => decide (k < l) && Memory.wf ((l, u) :: rest)

/-- `MemRead(addr, 1)` (R6, R25, R28): the byte last written, or the power-on byte of an address nothing has written
(R104). Used at addresses below `MEM_SIZE` only. -/
def memRead (s : State) (addr : Nat) : Byte :=
  match s.mem.lookup addr with
  | some v => v
  | none => Config.powerOnByte s.powerUps addr

/-- `MemWrite(addr, 1, v)` (R6, R25, R28). Used at addresses below `MEM_SIZE` only. -/
def memWrite (addr : Nat) (v : Byte) (s : State) : State :=
  { s with mem := s.mem.store addr v }

/-! ### The register file -/

/-- What a read of register `i` gives: x[i] for 0 to 3 and 5 to 8; 0 for `CMD`, which stores nothing, and for an index
above 8 (R8, R11, R15, R81). -/
def regRead (s : State) (i : Nat) : Word :=
  match i with
  | 0 => s.src
  | 1 => s.dst
  | 2 => s.height
  | 3 => s.width
  | 5 => s.status
  | 6 => s.bytes
  | 7 => s.outH
  | 8 => s.outW
  | _ => 0

/-- A host write to register `i` other than `CMD`: the RW registers store the value, every other index changes nothing
(R9, R15, R16, R80). -/
def regWrite (i : Nat) (v : Word) (s : State) : State :=
  match i with
  | 0 => { s with src := v }
  | 1 => { s with dst := v }
  | 2 => { s with height := v }
  | 3 => { s with width := v }
  | _ => s

/-! ### The end of a command -/

/-- `raise CmdError(code)`, complete (R95): the one exceptional event (R85). It is not a transfer of control, and
nothing returns from it (R98). -/
def cmdError (e : CmdErr) (s : State) : State :=
  { s with status := errStatus e, bytes := 0, outH := 0, outW := 0 }

/-- The last line of a successful command (R50, R59): `STATUS` = 0 and the three result registers. The numbers fit 32
bits on success (R13, R14; log 13). -/
def cmdDone (count outH outW : Nat) (s : State) : State :=
  { s with
    status := 0
    bytes := BitVec.ofNat 32 count
    outH := BitVec.ofNat 32 outH
    outW := BitVec.ofNat 32 outW }

/-! ### Loops -/

/-- `for i in 0 .. n-1: body i`, in ascending order. -/
def forUpTo : Nat → (Nat → State → State) → State → State
  | 0, _, s => s
  | n + 1, body, s => body n (forUpTo n body s)

/-- `for r in 0 .. h-1: for c in 0 .. w-1: body r c` (R50, R59). -/
def forPixels (h w : Nat) (body : Nat → Nat → State → State) (s : State) : State :=
  forUpTo h (fun r => forUpTo w (fun c => body r c)) s

/-! ### Reset -/

/-- Every register at its reset value (R23, R103). -/
def resetRegisters (s : State) : State :=
  { s with
    src := 0, dst := 0, height := 0, width := 0
    status := 0, bytes := 0, outH := 0, outW := 0 }

/-- A hardware reset that is not a power-on: the registers are reset and `MEM` is left as it was (R104). -/
def hardwareReset (s : State) : State := resetRegisters s

/-- Power-on: the registers are reset and every byte of `MEM` is unspecified afresh (R104; log 5). -/
def powerOnReset (s : State) : State :=
  { resetRegisters s with mem := [], powerUps := s.powerUps + 1 }

end Sys2Proof.Machine
end

