-- ==== Sys2Proof/Machine/Colour.lean ====
section
/-! DEFINITION. The colour transform family: `TOYCBCR` (R50 to R58). -/

namespace Sys2Proof.Machine

open Sys2Proof

/-- `NY` of R52. -/
def lumaNum (r g b : Int) : Int := 299 * r + 587 * g + 144 * b

/-- `NCB` + 128·1722 of R53. -/
def cbNum (r g b : Int) : Int := -299 * r - 587 * g + 866 * b + 220416

/-- `NCR` + 128·1402 of R54. -/
def crNum (r g b : Int) : Int := 701 * r - 587 * g - 144 * b + 179456

/-- `Yraw` of R52: the luma rounded, before the clamp. -/
def lumaRaw (tie : RoundTie) (r g b : Int) : Int := rdiv tie (lumaNum r g b) 1000

/-- `Cbraw` of R53. -/
def cbRaw (tie : RoundTie) (r g b : Int) : Int := rdiv tie (cbNum r g b) 1722

/-- `Crraw` of R54. -/
def crRaw (tie : RoundTie) (r g b : Int) : Int := rdiv tie (crNum r g b) 1402

/-- `YCC(R, G, B)` of R55: round first, then clamp, on each of the three channels. -/
def ycc (tie : RoundTie) (r g b : Byte) : Byte × Byte × Byte :=
  (clampByte (lumaRaw tie r.toNat g.toNat b.toNat),
   clampByte (cbRaw tie r.toNat g.toNat b.toNat),
   clampByte (crRaw tie r.toNat g.toNat b.toNat))

/-- The loop body of R50 for one pixel. -/
def toycbcrPixel (o : Operands) (r c : Nat) (s : State) : State :=
  let red := memRead s (pixelAddr o.src o.width r c 0)
  let green := memRead s (pixelAddr o.src o.width r c 1)
  let blue := memRead s (pixelAddr o.src o.width r c 2)
  let out := ycc s.cfg.roundTie red green blue
  memWrite (pixelAddr o.dst o.width r c 2) out.2.2
    (memWrite (pixelAddr o.dst o.width r c 1) out.2.1
      (memWrite (pixelAddr o.dst o.width r c 0) out.1 s))

/-- The two loops of R50. -/
def toycbcrArray (o : Operands) (s : State) : State :=
  forPixels o.height o.width (toycbcrPixel o) s

/-- `TOYCBCR` (R50): sample the operands, check, transform every pixel, report. -/
def execToycbcr (s : State) : Host.Outcome State Fault Refusal :=
  let o := sampleOperands s
  match toycbcrCheck s.cfg o with
  | some e => .next (cmdError e s)
  | none => .next (cmdDone 0 o.height o.width (toycbcrArray o s))

end Sys2Proof.Machine
end

