-- ==== Sys2Proof/Machine/Subsample.lean ====
section
/-! DEFINITION. The chroma subsampling family: `SUBSAMPLE a, b` (R59 to R78), by the closed form of R74 that the
pseudocode of R59 uses. The document's algorithm step by step is in Planes.lean. -/

namespace Sys2Proof.Machine

open Sys2Proof

/-- `ROWSEL(r, H, da, db)` of R74: the source row of output row `r`, and its divide factor. -/
def rowSel (r h da db : Nat) : Nat × Nat :=
  if db = 0 then (2 * (r / 2), da)
  else if r < h then (r, if r % 2 = 0 then da else db)
  else (h - 1, da)

/-- `COLSEL(c, W, d)` of R74: the source column of output column `c`. -/
def colSel (c w d : Nat) : Nat := d * min (c / d) (ceilDiv w d - 1)

/-- `COUNT(H, W, da, db)` of R68, over the source dimensions. -/
def sampleCount (h w da db : Nat) : Nat :=
  h * w + 2 * (ceilDiv h 2 * ceilDiv w da + (if db = 0 then 0 else (h / 2) * ceilDiv w db))

/-- The loop body of R59 for one output pixel: luma from R72, both chroma samples from R74. -/
def subsamplePixel (o : Operands) (da db r c : Nat) (s : State) : State :=
  let wp := evenUp o.width
  let row := rowSel r o.height da db
  let col := colSel c o.width row.2
  let s0 := memWrite (pixelAddr o.dst wp r c 0)
    (memRead s (pixelAddr o.src o.width (min r (o.height - 1)) (min c (o.width - 1)) 0)) s
  let s1 := memWrite (pixelAddr o.dst wp r c 1) (memRead s0 (pixelAddr o.src o.width row.1 col 1)) s0
  memWrite (pixelAddr o.dst wp r c 2) (memRead s1 (pixelAddr o.src o.width row.1 col 2)) s1

/-- The two loops of R59, over the padded shape (R63). -/
def subsampleArray (o : Operands) (da db : Nat) (s : State) : State :=
  forPixels (evenUp o.height) (evenUp o.width) (subsamplePixel o da db) s

/-- The divide factor of a parameter that has passed validation. Validation passes no argument on which `DF` is
undefined (R62), so the 0 that stands for an undefined one is never used (U4; log 11). -/
def legalFactor (s : Int) : Nat := (divideFactor s).getD 0

/-- `SUBSAMPLE a, b` (R59): sample the operands, check, write the reconstructed array, report the count. -/
def execSubsample (a b : Int) (s : State) : Host.Outcome State Fault Refusal :=
  let o := sampleOperands s
  match subsampleCheck s.cfg a b o with
  | some e => .next (cmdError e s)
  | none =>
    let da := legalFactor a
    let db := legalFactor b
    .next (cmdDone (sampleCount o.height o.width da db) (evenUp o.height) (evenUp o.width)
      (subsampleArray o da db s))

end Sys2Proof.Machine
end

