-- ==== Sys2Proof/Machine/Dispatch.lean ====
section
/-! DEFINITION. One arm per command: what a write of its word to `CMD` does (R11, R80). -/

namespace Sys2Proof.Machine

open Sys2Proof

/-- The command `i`, executed to completion in one transition (R4, R11, R33). -/
def exec (i : Instr) (s : State) : Host.Outcome State Fault Refusal :=
  match i with
  | .toycbcr => Sys2Proof.Machine.execToycbcr s
  | .subsample a b => Sys2Proof.Machine.execSubsample a b s

end Sys2Proof.Machine
end

