-- ==== Sys2Proof/Machine/Transactions.lean ====
section
/-! DEFINITION. The host transaction family (R79 to R83) and the platform's resets (R102 to R104): what one event does. -/

namespace Sys2Proof.Machine

open Sys2Proof

/-- A host write to `CMD` (R11, R80): the word is decoded and its command executed; a reserved word is a command that
fails with `E_OPCODE` (R44, R94). The word is not stored. -/
def writeCmd (w : Word) (s : State) : Host.Outcome State Fault Refusal :=
  match decode w with
  | .ok i => exec i s
  | .error _ => .next (cmdError .opcode s)

/-- `wr i, v` (R80). -/
def hostWrite (i : Nat) (v : Word) (s : State) : Host.Outcome State Fault Refusal :=
  if i = 4 then writeCmd v s else .next (regWrite i v s)

/-- `rd i` (R81): it changes nothing of the block, and the host has its answer (log 8). -/
def hostRead (i : Nat) (s : State) : Host.Outcome State Fault Refusal :=
  .next { s with answers := s.answers ++ [.word (regRead s i)] }

/-- `mwr addr, v` (R82). -/
def hostMemWrite (addr : Word) (v : Byte) (s : State) : Host.Outcome State Fault Refusal :=
  if addr.toNat < s.cfg.memSize then .next (memWrite addr.toNat v s)
  else .refused (.noSuchByte addr)

/-- `mrd addr` (R83). -/
def hostMemRead (addr : Word) (s : State) : Host.Outcome State Fault Refusal :=
  if addr.toNat < s.cfg.memSize then
    .next { s with answers := s.answers ++ [.byte (memRead s addr.toNat)] }
  else .refused (.noSuchByte addr)

/-- One event of the total order of R33, complete before the next begins. -/
def perform (e : Event) (s : State) : Host.Outcome State Fault Refusal :=
  match e with
  | .wr i v => hostWrite i v s
  | .rd i => hostRead i s
  | .mwr addr v => hostMemWrite addr v s
  | .mrd addr => hostMemRead addr s
  | .reset => .next (hardwareReset s)
  | .powerOn => .next (powerOnReset s)

/-- The next event still to come, taken off the list, and performed. With none to come nothing happens: the block does
nothing of its own (R10, R105; log 1). -/
def nextEvent (s : State) : Host.Outcome State Fault Refusal :=
  match s.pending with
  | [] => .next s
  | e :: rest => perform e { s with pending := rest }

/-- The host issues events after those already to come. -/
def issue (es : List Event) (s : State) : State := { s with pending := s.pending ++ es }

/-- The event that runs a command: the host's write of its word to `CMD` (R11, R49). -/
def commandEvent (w : Word) : Event := .wr 4 w

/-- The state in which the very next event writes the word `w` to `CMD`. -/
def withCommandWord (w : Word) (s : State) : State := { s with pending := commandEvent w :: s.pending }

end Sys2Proof.Machine
end

