-- ==== Sys2Proof/Machine/Step.lean ====
section
/-! DEFINITION. One step of the machine: one event of the total order of R33. -/

namespace Sys2Proof.Machine

open Sys2Proof

/-- One step: the next outside event, with all its effects (R33, R79). -/
def step (s : State) : Host.Outcome State Fault Refusal := nextEvent s

/-- `s` with the instruction of the opcode table's bits `w` as its next event: commands are not fetched, they are the
data of the host's write to `CMD` (R36; log 1, log 17). -/
def State.withFetchWord (s : State) (nbits w : Nat) : State := withCommandWord (tableWord nbits w) s

end Sys2Proof.Machine
end

