-- ==== Sys2Proof/Machine/Planes.lean ====
section
/-! DEFINITION. The function layer on arrays of samples: the transform (R55, R58); the subsampler's closed form (R74);
and the subsampler step by step as the document has it (R61 to R73): planes, row groups, decimation, replication,
interleaving, assembly, and the running count. Claims compare the two commands with it. -/

namespace Sys2Proof.Machine

open Sys2Proof

/-- A PixelArray seen as samples by row, column and channel (R6, R19). -/
abbrev Samples := Nat → Nat → Nat → Byte

/-- One plane of samples by row and column. -/
abbrev Plane := Nat → Nat → Byte

/-- The samples of the array of row width `w` at `base` in the memory of `s` (R27). -/
def samplesAt (s : State) (base w : Nat) : Samples := fun r c k => memRead s (pixelAddr base w r c k)

/-- The transform on an array: each pixel through `YCC`, channel by channel (R50, R55, R58). -/
def transformSamples (tie : RoundTie) (img : Samples) : Samples := fun r c k =>
  let out := ycc tie (img r c 0) (img r c 1) (img r c 2)
  if k = 0 then out.1 else if k = 1 then out.2.1 else out.2.2

/-- The legal set of R61. -/
def legalSpec (a b : Int) : Prop := (a = 1 ∨ a = 2 ∨ a = 4) ∧ (b = 0 ∨ b = 1 ∨ b = 2 ∨ b = 4)

/-- Step 1 (R64): the plane of channel `k`. -/
def splitPlane (img : Samples) (k : Nat) : Plane := fun r c => img r c k

/-- Step 2a (R65): group A, every `da`-th column of the even rows. -/
def groupA (da : Nat) (p : Plane) : Plane := fun i j => p (2 * i) (j * da)

/-- Step 2b (R66): group B, every `db`-th column of the odd rows. -/
def groupB (db : Nat) (p : Plane) : Plane := fun i j => p (2 * i + 1) (j * db)

/-- `nA` of R65. -/
def rowsOfA (h : Nat) : Nat := ceilDiv h 2

/-- `nB` of R66. -/
def rowsOfB (h : Nat) : Nat := h / 2

/-- `mA` of R65 and `mB` of R66: the columns that decimation by `d` retains. -/
def colsKept (w d : Nat) : Nat := ceilDiv w d

/-- Step 2c (R69): each retained sample repeated `d` times along its row, cut or extended to the row. -/
def replicateCols (w d : Nat) (g : Plane) : Plane := fun i c => g i (min (c / d) (colsKept w d - 1))

/-- Step 2d for `db` ≠ 0 (R70): group-A rows at even positions, group-B rows at odd ones, and the padded row of an odd
height a copy of the row above it. -/
def interleaveRows (h : Nat) (ra rb : Plane) : Plane := fun r c =>
  if r % 2 = 0 then ra (r / 2) c
  else if r < h then rb ((r - 1) / 2) c
  else ra ((r - 1) / 2) c

/-- Step 2d for `db` = 0 (R71): each group-A row twice. -/
def duplicateRows (ra : Plane) : Plane := fun r c => ra (r / 2) c

/-- Steps 2a to 2d on one chroma plane; with `db` = 0 there is no group B (R67). -/
def reconstructChroma (h w da db : Nat) (p : Plane) : Plane :=
  let ra := replicateCols w da (groupA da p)
  if db = 0 then duplicateRows ra
  else interleaveRows h ra (replicateCols w db (groupB db p))

/-- Step 3 (R72): luma passes through, its last valid row and column repeated into the padding. -/
def padLuma (h w : Nat) (y : Plane) : Plane := fun r c => y (min r (h - 1)) (min c (w - 1))

/-- Steps 4 and 5 (R73): the reconstructed array. -/
def reconstruct (h w da db : Nat) (img : Samples) : Samples := fun r c k =>
  if k = 0 then padLuma h w (splitPlane img 0) r c
  else reconstructChroma h w da db (splitPlane img k) r c

/-- The closed form of R74: the reconstructed array by one selection for each output sample. -/
def selectSamples (h w da db : Nat) (img : Samples) : Samples := fun r c k =>
  if k = 0 then img (min r (h - 1)) (min c (w - 1)) 0
  else img (rowSel r h da db).1 (colSel c w (rowSel r h da db).2) k

/-- The samples that decimation retains of one chroma plane: group A, then group B unless `db` = 0 (R65 to R67). -/
def retainedOfPlane (h w da db : Nat) : Nat :=
  rowsOfA h * colsKept w da + if db = 0 then 0 else rowsOfB h * colsKept w db

/-- The byte total as the steps accumulate it (R64 to R68): both chroma planes, then luma in full. -/
def accumulatedCount (h w da db : Nat) : Nat :=
  retainedOfPlane h w da db + retainedOfPlane h w da db + h * w

/-- Whether decimation retains the chroma sample at source row `r`, column `c` (R65 to R67, R78 (ii)). -/
def retainedChroma (da db r c : Nat) : Bool :=
  if r % 2 = 0 then decide (c % da = 0) else decide (db ≠ 0 ∧ c % db = 0)

end Sys2Proof.Machine
end

