-- ==== Sys2Proof/Machine/Script.lean ====
section
/-! DEFINITION. The textual syntax: the assembler's commands (R47, R48) and the lines of a host script (R49), each to
the events the host issues for it. A line is a list of characters. -/

namespace Sys2Proof.Machine

open Sys2Proof

/-- The index of a register by its name (R8). -/
def registerNamed (t : List Char) : Option Nat :=
  if t = "SRC".toList then some 0
  else if t = "DST".toList then some 1
  else if t = "HEIGHT".toList then some 2
  else if t = "WIDTH".toList then some 3
  else if t = "CMD".toList then some 4
  else if t = "STATUS".toList then some 5
  else if t = "BYTES".toList then some 6
  else if t = "OUT_H".toList then some 7
  else if t = "OUT_W".toList then some 8
  else none

/-- The pseudo-instruction of a mnemonic (R48). -/
def pseudoNamed (t : List Char) : Option Pseudo :=
  if t = "ss444".toList then some .ss444
  else if t = "ss422".toList then some .ss422
  else if t = "ss420".toList then some .ss420
  else if t = "ss411".toList then some .ss411
  else if t = "ss410".toList then some .ss410
  else none

/-- The tokens of a line: words between blanks, and each comma; a `;` starts a comment (R49). `cur` is the word being
read, last character first. -/
def tokens : List Char → (cur : List Char) → List (List Char)
  | [], cur => if cur = [] then [] else [cur.reverse]
  | c :: rest, cur =>
    let done := if cur = [] then [] else [cur.reverse]
    if c = ';' then done
    else if c = ' ' then done ++ tokens rest []
    else if c = ',' then done ++ [[',']] ++ tokens rest []
    else tokens rest (c :: cur)

/-- The digits of the numerals of R47 and R49, each at the place of its value: the ten decimal ones, then the six more
of hexadecimal, which spec/ writes as capitals. -/
def digitSymbols : List Char := "0123456789ABCDEF".toList

/-- The value of a digit: its place among the symbols. A small letter counts as its capital (log 18). -/
def digitValue (c : Char) : Option Nat := digitSymbols.idxOf? c.toUpper

/-- Digits in a base, most significant first, continuing from `acc`. -/
def digitsFrom (base : Nat) : List Char → (acc : Nat) → Option Nat
  | [], acc => some acc
  | c :: rest, acc =>
    match digitValue c with
    | some d => if d < base then digitsFrom base rest (acc * base + d) else none
    | none => none

/-- A decimal integer without sign. -/
def decimal (t : List Char) : Option Nat := if t = [] then none else digitsFrom 10 t 0

/-- `v` and `addr` of R49: decimal or `0x` hexadecimal. -/
def numeral (t : List Char) : Option Nat :=
  match t with
  | '0' :: 'x' :: c :: rest => digitsFrom 16 (c :: rest) 0
  | _ => decimal t

/-- A 32-bit numeral; a larger one has no word (log 18). -/
def wordNumeral (t : List Char) : Option Word :=
  match numeral t with
  | some n => if n < 2 ^ 32 then some (BitVec.ofNat 32 n) else none
  | none => none

/-- An operand of `subsample`: a decimal integer with an optional leading `-` (R47). -/
def signedDecimal (t : List Char) : Option Int :=
  match t with
  | '-' :: rest => (decimal rest).map fun n => -(n : Int)
  | _ => (decimal t).map fun n => (n : Int)

/-- A byte of `mwr`: two hexadecimal digits without prefix (R49). -/
def hexByte (t : List Char) : Option Byte :=
  match t with
  | [_, _] => (digitsFrom 16 t 0).map (BitVec.ofNat 8)
  | _ => none

/-- The bytes of a `mwr` line, all of them or none. -/
def hexBytes : List (List Char) → Option (List Byte)
  | [] => some []
  | t :: rest =>
    match hexByte t, hexBytes rest with
    | some b, some bs => some (b :: bs)
    | _, _ => none

/-- `mwr addr, b0 b1 ... bn`: one byte write each, `b0` to `addr`, `b1` to `addr` + 1, in that order (R49). -/
def byteWrites (addr : Nat) : List Byte → List Event
  | [] => []
  | b :: rest => .mwr (BitVec.ofNat 32 addr) b :: byteWrites (addr + 1) rest

/-- The command a line of tokens names (R47, R48). -/
def commandNamed (ts : List (List Char)) : Option Instr :=
  match ts with
  | [m] => if m = "toycbcr".toList then some .toycbcr else (pseudoNamed m).map Pseudo.expand
  | [m, ta, [','], tb] =>
    if m = "subsample".toList then
      match signedDecimal ta, signedDecimal tb with
      | some a, some b => some (.subsample a b)
      | _, _ => none
    else none
  | _ => none

/-- The register a `wr` or `rd` line names: by name (R49), or by its index as the sequence of spec/95 section 2.9
writes it (log 18). -/
def registerOperand (t : List Char) : Option Nat :=
  match registerNamed t with
  | some i => some i
  | none => decimal t

/-- The events of a command line: one `wr CMD, word`, or none if the assembler refuses the operands (R47, R49). -/
def commandEvents (ts : List (List Char)) : Option (List Event) :=
  match commandNamed ts with
  | some i => (assemble i).map fun w => [commandEvent w]
  | none => none

/-- The events of one line's tokens; a line outside the syntax has none. -/
def lineEvents (ts : List (List Char)) : Option (List Event) :=
  match ts with
  | [] => some []
  | m :: rest =>
    if m = "wr".toList then
      match rest with
      | [r, [','], v] =>
        match registerOperand r, wordNumeral v with
        | some i, some w => some [.wr i w]
        | _, _ => none
      | _ => none
    else if m = "rd".toList then
      match rest with
      | [r] => (registerOperand r).map fun i => [.rd i]
      | _ => none
    else if m = "mwr".toList then
      match rest with
      | ta :: [','] :: b :: bs =>
        match numeral ta, hexBytes (b :: bs) with
        | some addr, some bytes =>
          if addr + bytes.length ≤ 2 ^ 32 then some (byteWrites addr bytes) else none
        | _, _ => none
      | _ => none
    else if m = "mrd".toList then
      match rest with
      | [ta] => (wordNumeral ta).map fun addr => [.mrd addr]
      | _ => none
    else commandEvents ts

/-- One line of a host script (R49). -/
def scriptLine (line : List Char) : Option (List Event) := lineEvents (tokens line [])

/-- A host script: its lines in the order the host issues them (R49). -/
def script : List (List Char) → Option (List Event)
  | [] => some []
  | line :: rest =>
    match scriptLine line, script rest with
    | some es, some more => some (es ++ more)
    | _, _ => none

end Sys2Proof.Machine
end

