-- ==== Sys2Proof/Safety.lean ====
section
/-! DEFINITION. The terms in which claims speak of safe states and steps: the invariant of the state, the arrays a
command accepts, what a command leaves alone, and the host accesses that the spec gives a meaning. -/

namespace Sys2Proof.Machine

open Sys2Proof

/-- What is true of every state that a run reaches: the memory's canonical form, inside `MEM` (R25, R92), and what the
RO registers can hold (R12 to R14, R16, U11). -/
structure State.Inv (s : State) : Prop where
  /-- Frame memory is in canonical form. -/
  memWf : s.mem.wf = true
  /-- Only bytes that exist have been written (R25, R92). -/
  memInside : ∀ cell ∈ s.mem, cell.1 < s.cfg.memSize
  /-- `STATUS` holds one of the codes 0 to 7, so its bits [31:4] are zero (R12, R86). -/
  statusCode : s.status.toNat ≤ 7
  /-- After a failed command the three result registers are 0 (R95). -/
  failedZero : s.status ≠ 0 → s.bytes = 0 ∧ s.outH = 0 ∧ s.outW = 0
  /-- `OUT_H` and `OUT_W` are 0 together (R12, R14). -/
  outTogether : s.outH = 0 ↔ s.outW = 0
  /-- The result array of the last successful command fits in `MEM` (R14, R92). -/
  outFits : 3 * s.outH.toNat * s.outW.toNat ≤ s.cfg.memSize
  /-- The byte count is at most the number of samples of that array (R13, R76). -/
  bytesBound : s.bytes.toNat ≤ 3 * s.outH.toNat * s.outW.toNat

/-- The operand registers describe arrays that a command accepts, a source of `slen` and a destination of `dlen`
bytes: dimensions at least 1 (R91), both regions inside `MEM` (R92), no byte in common (R93). -/
abbrev ArraysLegal (s : State) (slen dlen : Nat) : Prop :=
  0 < s.height.toNat ∧ 0 < s.width.toNat ∧
  s.src.toNat + slen ≤ s.cfg.memSize ∧ s.dst.toNat + dlen ≤ s.cfg.memSize ∧
  (s.src.toNat + slen ≤ s.dst.toNat ∨ s.dst.toNat + dlen ≤ s.src.toNat)

/-- Everything but `MEM` and the four RO registers is the same in `t` as in `s`: the operand registers (R9 (iii)),
the parameters (R22), and the model's own fields. -/
abbrev SameApartFromResults (s t : State) : Prop :=
  t.src = s.src ∧ t.dst = s.dst ∧ t.height = s.height ∧ t.width = s.width ∧
  t.cfg = s.cfg ∧ t.powerUps = s.powerUps ∧ t.pending = s.pending ∧ t.answers = s.answers

/-- Every byte outside the `len` bytes at `base` reads in `t` as it did in `s`. -/
def MemSameOutside (base len : Nat) (s t : State) : Prop :=
  ∀ a : Nat, (a < base ∨ base + len ≤ a) → memRead t a = memRead s a

/-- The same bytes everywhere. -/
def MemSame (s t : State) : Prop := ∀ a : Nat, memRead t a = memRead s a

/-- The state after a failed command with the given code (R95), written out. -/
def failedWith (code : Nat) (s : State) : State :=
  { s with status := BitVec.ofNat 32 code, bytes := 0, outH := 0, outW := 0 }

/-- The event is one the spec gives a meaning: a memory transaction is at an address of `MEM` (R82, R83, U6). -/
def eventHasMeaning (p : Params) : Event → Bool
  | .mwr addr _ => decide (addr.toNat < p.memSize)
  | .mrd addr => decide (addr.toNat < p.memSize)
  | _ => true

end Sys2Proof.Machine
end

