-- ==== Sys2Proof/Certificates/Slice0/Obligations.lean ====
section
/-! DEFINITION. The statements for the provers. R<n> is a rule of spec/, log n is notes/assumptions/n.md. A state is any
state: every `MEM_SIZE` and both values of `ROUND_TIE` are covered wherever nothing says otherwise. That events wait in
`pending`, and that answers gather in `answers`, is the model's choice (log 1, log 8) in every statement about a step. -/

open Sys2Proof Sys2Proof.Machine

/-! ### The command word -/

/-- R42, R43: the decoder reads back every command that has an encoding, with every immediate of −128 to 127. -/
def Obligations.DecodeOfEncodeIsTheCommand : Prop :=
  ∀ i : Instr, i.wellFormed = true → decode (encode i) = .ok i

/-- R42, R43: a word that decodes to a command is the only word of that command, which has an encoding. -/
def Obligations.EncodeOfDecodeIsTheWord : Prop :=
  ∀ (w : Word) (i : Instr), decode w = .ok i → i.wellFormed = true ∧ encode i = w

/-- R40 to R44, in the arithmetic of the word's value: `TOYCBCR` is the one word 1; `SUBSAMPLE a, b` is every word with
`OPC` = 2 and `RSV` = 0, a and b the signed values of its two middle bytes; every other word is reserved. -/
def Obligations.DecoderFollowsTheOpcodeMap : Prop :=
  ∀ w : Word,
    (decode w = .ok .toycbcr ↔ w.toNat = 1) ∧
    (∀ a b : Int, decode w = .ok (.subsample a b) ↔
      w.toNat % 256 = 2 ∧ w.toNat / 2 ^ 24 = 0 ∧
      -128 ≤ a ∧ a ≤ 127 ∧ a % 256 = ((w.toNat / 2 ^ 8 % 256 : Nat) : Int) ∧
      -128 ≤ b ∧ b ≤ 127 ∧ b % 256 = ((w.toNat / 2 ^ 16 % 256 : Nat) : Int)) ∧
    ((∃ e, decode w = .error e) ↔
      (w.toNat % 256 ≠ 1 ∧ w.toNat % 256 ≠ 2) ∨ w.toNat / 2 ^ 24 ≠ 0 ∨
      (w.toNat % 256 = 1 ∧ w.toNat / 2 ^ 8 % 65536 ≠ 0))

/-- Some words of the tables of R43, R48 and spec/95 section 2.7 decode to what those tables say. -/
def Obligations.TabulatedWordsDecode : Prop :=
  decode 0x00000001#32 = .ok .toycbcr ∧
  decode 0x00040402#32 = .ok (.subsample 4 4) ∧
  decode 0x00020102#32 = .ok (.subsample 1 2) ∧
  decode 0x0000FF02#32 = .ok (.subsample (-1) 0) ∧
  decode 0x00800002#32 = .ok (.subsample 0 (-128)) ∧
  decode 0x00000101#32 = .error .toycbcrFieldsNonzero ∧
  decode 0x01040402#32 = .error .rsvNonzero ∧
  decode 0x00000000#32 = .error .noSuchOpcode

/-- R47: the assembler accepts exactly the pairs of −128 to 127, and the word is `0x02 + 256·(a mod 256) +
65536·(b mod 256)`. -/
def Obligations.AssemblerWordOfSubsample : Prop :=
  ∀ a b : Int,
    (assemble (.subsample a b) = none ↔ ¬(-128 ≤ a ∧ a ≤ 127 ∧ -128 ≤ b ∧ b ≤ 127)) ∧
    (∀ w, assemble (.subsample a b) = some w → (w.toNat : Int) = 0x02 + 256 * (a % 256) + 65536 * (b % 256))

/-- R48, R49: a line that is one of the five pseudo-instructions is one write of its word to `CMD`, and no other
mnemonic is a pseudo-instruction. -/
def Obligations.PseudoInstructionWords : Prop :=
  scriptLine "ss444".toList = some [.wr 4 0x00040402#32] ∧
  scriptLine "ss422".toList = some [.wr 4 0x00020202#32] ∧
  scriptLine "ss420".toList = some [.wr 4 0x00000202#32] ∧
  scriptLine "ss411".toList = some [.wr 4 0x00010102#32] ∧
  scriptLine "ss410".toList = some [.wr 4 0x00000102#32] ∧
  ∀ t p, pseudoNamed t = some p →
    t = "ss444".toList ∨ t = "ss422".toList ∨ t = "ss420".toList ∨ t = "ss411".toList ∨ t = "ss410".toList

/-! ### Steps -/

/-- R11, R80: when the next event writes to `CMD` a word that decodes to a well-formed command, the step is that
command at the state with the event taken off the list. Nothing else is added around it: there is no program counter
to move (R10). -/
def Obligations.StepRunsTheDecodedCommand : Prop :=
  ∀ (s : State) (w : Word) (rest : List Event) (i : Instr),
    s.pending = .wr 4 w :: rest → decode w = .ok i → i.wellFormed = true →
    step s = exec i { s with pending := rest }

/-- The model's interface (log 1, log 17): the instruction that the decoder reads from a table row's 32 bits is the one
the very next step runs. -/
def Obligations.FetchWordRunsTheTableInstruction : Prop :=
  ∀ (s : State) (w : Nat) (i : Instr),
    decodeTableWord 32 w = some i → step (s.withFetchWord 32 w) = exec i s

/-- The model's choice (log 1; R10, R105): with no event to come a step changes nothing. -/
def Obligations.StepWithoutEventsIsIdle : Prop :=
  ∀ s : State, s.pending = [] → step s = .next s

/-- R113, R95, R104, and R82, R83 for the one stop (log 7): from every state a step answers a next state, unless its
event is a host access to a byte that does not exist, which is refused. No step faults. -/
def Obligations.StepStopsOnlyOutsideMemory : Prop :=
  ∀ s : State,
    (∃ t, step s = .next t) ∨
    (∃ addr v rest, s.cfg.memSize ≤ addr.toNat ∧
      (s.pending = .mwr addr v :: rest ∨ s.pending = .mrd addr :: rest) ∧
      step s = .refused (.noSuchByte addr))

/-- R5, R22: the parameters of an instance are fixed for its life. -/
def Obligations.StepKeepsTheParameters : Prop :=
  ∀ s t : State, step s = .next t → t.cfg = s.cfg

/-- R25, R12 to R14, R16, R86, R92, R95: the invariant of Safety.lean is kept by every step, from every state that has
it. -/
def Obligations.StepKeepsTheInvariant : Prop :=
  ∀ s t : State, s.Inv → step s = .next t → t.Inv

/-- R23, R103: the state after power-on has the invariant. -/
def Obligations.ResetHasTheInvariant : Prop := State.reset.Inv

/-- R9 (iii), R12, R25: the operand registers change only by a host write to them or a reset; the four RO registers only
by a command or a reset; a byte of memory only by a command, a host write to that byte, or a power-on (log 5). -/
def Obligations.StepChangesOnlyWhatItsEventNames : Prop :=
  ∀ s t : State, step s = .next t →
    (¬(t.src = s.src ∧ t.dst = s.dst ∧ t.height = s.height ∧ t.width = s.width) →
      ∃ rest, (∃ i v, i < 4 ∧ s.pending = .wr i v :: rest) ∨
        s.pending = .reset :: rest ∨ s.pending = .powerOn :: rest) ∧
    (¬(t.status = s.status ∧ t.bytes = s.bytes ∧ t.outH = s.outH ∧ t.outW = s.outW) →
      ∃ rest, (∃ w, s.pending = .wr 4 w :: rest) ∨
        s.pending = .reset :: rest ∨ s.pending = .powerOn :: rest) ∧
    (∀ a, memRead t a ≠ memRead s a →
      ∃ rest, (∃ w, s.pending = .wr 4 w :: rest) ∨
        (∃ addr v, addr.toNat = a ∧ s.pending = .mwr addr v :: rest) ∨ s.pending = .powerOn :: rest)

/-! ### Host transactions and resets -/

/-- R80: `wr i, v` stores v in the operand registers 0 to 3, runs `decode(v)` for `CMD`, and does nothing for 5 to 8
and above. -/
def Obligations.HostWriteByRegister : Prop :=
  ∀ (s : State) (i : Nat) (v : Word) (rest : List Event), s.pending = .wr i v :: rest →
    (i = 0 → step s = .next { s with pending := rest, src := v }) ∧
    (i = 1 → step s = .next { s with pending := rest, dst := v }) ∧
    (i = 2 → step s = .next { s with pending := rest, height := v }) ∧
    (i = 3 → step s = .next { s with pending := rest, width := v }) ∧
    (i = 4 → ∀ c, decode v = .ok c → step s = exec c { s with pending := rest }) ∧
    (i = 4 → ∀ e, decode v = .error e → step s = .next (failedWith 7 { s with pending := rest })) ∧
    (5 ≤ i → step s = .next { s with pending := rest })

/-- R81: `rd i` answers x[i] for 0 to 3 and 5 to 8, and 0 for `CMD` and above 8; it changes nothing of the block. -/
def Obligations.HostReadByRegister : Prop :=
  ∀ (s : State) (i : Nat) (rest : List Event), s.pending = .rd i :: rest →
    ∃ v : Word, step s = .next { s with pending := rest, answers := s.answers ++ [.word v] } ∧
      (i = 0 → v = s.src) ∧ (i = 1 → v = s.dst) ∧ (i = 2 → v = s.height) ∧ (i = 3 → v = s.width) ∧
      (i = 5 → v = s.status) ∧ (i = 6 → v = s.bytes) ∧ (i = 7 → v = s.outH) ∧ (i = 8 → v = s.outW) ∧
      (i = 4 ∨ 8 < i → v = 0)

/-- R82: `mwr addr, v` changes that byte and nothing else, and never a register; outside `MEM` it is refused. -/
def Obligations.HostMemoryWriteStoresTheByte : Prop :=
  ∀ (s : State) (addr : Word) (v : Byte) (rest : List Event), s.pending = .mwr addr v :: rest →
    (addr.toNat < s.cfg.memSize →
      ∃ t, step s = .next t ∧ t = { s with pending := rest, mem := t.mem } ∧
        memRead t addr.toNat = v ∧ MemSameOutside addr.toNat 1 s t) ∧
    (s.cfg.memSize ≤ addr.toNat → step s = .refused (.noSuchByte addr))

/-- R83: `mrd addr` answers the byte at `addr` and changes nothing of the block; outside `MEM` it is refused. -/
def Obligations.HostMemoryReadAnswersTheByte : Prop :=
  ∀ (s : State) (addr : Word) (rest : List Event), s.pending = .mrd addr :: rest →
    (addr.toNat < s.cfg.memSize →
      step s = .next { s with pending := rest, answers := s.answers ++ [.byte (memRead s addr.toNat)] }) ∧
    (s.cfg.memSize ≤ addr.toNat → step s = .refused (.noSuchByte addr))

/-- R23, R103, R104: after a hardware reset every register reads 0 and every byte of `MEM` is as it was; and the state
after power-on has every register 0. That a reset leaves the model's own fields is the model's choice (log 6). -/
def Obligations.ResetClearsRegistersAndKeepsMemory : Prop :=
  (∀ (s : State) (rest : List Event), s.pending = .reset :: rest →
    ∃ t, step s = .next t ∧ (∀ i, regRead t i = 0) ∧ MemSame s t ∧
      t.cfg = s.cfg ∧ t.powerUps = s.powerUps ∧ t.pending = rest ∧ t.answers = s.answers) ∧
  (∀ i, regRead State.reset i = 0)

/-- The model's choice for R104 (log 4, log 5): after a power-on every register reads 0 and each byte of `MEM` is the
free power-on byte of its address, whatever that is. -/
def Obligations.PowerOnLeavesFreeBytes : Prop :=
  ∀ (s : State) (rest : List Event), s.pending = .powerOn :: rest →
    ∃ t, step s = .next t ∧ (∀ i, regRead t i = 0) ∧
      (∀ a, memRead t a = Config.powerOnByte (s.powerUps + 1) a) ∧ t.cfg = s.cfg ∧ t.pending = rest

/-- R24 (the spec's inference from R23, R91, R96): with the operand registers at their reset values no command
succeeds: a reserved word fails with 7, a rejected pair with its own code, everything else with `E_DIM`. -/
def Obligations.NoCommandSucceedsWithResetOperands : Prop :=
  ∀ (s : State) (w : Word) (rest : List Event), s.pending = .wr 4 w :: rest →
    s.src = 0 → s.dst = 0 → s.height = 0 → s.width = 0 →
    ∃ code : Nat, step s = .next (failedWith code { s with pending := rest }) ∧
      ((∃ e, decode w = .error e) → code = 7) ∧
      (decode w = .ok .toycbcr → code = 4) ∧
      (∀ a b, decode w = .ok (.subsample a b) →
        (1 ≤ code ∧ code ≤ 4) ∧ (code = 4 ↔ (a = 1 ∨ a = 2 ∨ a = 4) ∧ (b = 0 ∨ b = 1 ∨ b = 2 ∨ b = 4)))

/-! ### Command errors -/

/-- R95, with the codes of R86: the whole effect of `raise CmdError(code)`, for each of the seven causes; and it blocks
nothing: the next command runs as if the error had not happened. -/
def Obligations.RaiseCmdErrorEffects : Prop :=
  ∀ (e : CmdErr) (s : State) (code : Nat),
    (e = .specMax ∧ code = 1 ∨ e = .specNeg ∧ code = 2 ∨ e = .specThree ∧ code = 3 ∨ e = .dim ∧ code = 4 ∨
      e = .addr ∧ code = 5 ∨ e = .overlap ∧ code = 6 ∨ e = .opcode ∧ code = 7) →
    (cmdError e s).status = BitVec.ofNat 32 code ∧ (cmdError e s).bytes = 0 ∧
    (cmdError e s).outH = 0 ∧ (cmdError e s).outW = 0 ∧ MemSame s (cmdError e s) ∧
    SameApartFromResults s (cmdError e s) ∧ ∀ i : Instr, exec i (cmdError e s) = exec i s

/-- R94: writing a reserved word to `CMD` fails with `E_OPCODE`, code 7, and has no other effect. -/
def Obligations.ReservedWordFailsWithOpcodeError : Prop :=
  ∀ (s : State) (w : Word) (rest : List Event), s.pending = .wr 4 w :: rest →
    ((w.toNat % 256 ≠ 1 ∧ w.toNat % 256 ≠ 2) ∨ w.toNat / 2 ^ 24 ≠ 0 ∨
      (w.toNat % 256 = 1 ∧ (w.toNat / 2 ^ 8 % 256 ≠ 0 ∨ w.toNat / 2 ^ 16 % 256 ≠ 0))) →
    step s = .next { s with pending := rest, status := 7, bytes := 0, outH := 0, outW := 0 }

/-- R88, R89, R90: the three sampling errors of `SUBSAMPLE`, each when no earlier one fired, whatever the operand
registers hold. -/
def Obligations.SubsampleSamplingErrors : Prop :=
  ∀ (a b : Int) (s : State),
    (4 < a ∨ 4 < b → exec (.subsample a b) s = .next (failedWith 1 s)) ∧
    (¬(4 < a ∨ 4 < b) ∧ (a ≤ 0 ∨ b < 0) → exec (.subsample a b) s = .next (failedWith 2 s)) ∧
    (¬(4 < a ∨ 4 < b) ∧ ¬(a ≤ 0 ∨ b < 0) ∧ (a = 3 ∨ b = 3) →
      exec (.subsample a b) s = .next (failedWith 3 s))

/-- R61 (the spec's inference from R60): a pair passes the three checks exactly when a ∈ {1, 2, 4} and b ∈ {0, 1, 2,
4}. -/
def Obligations.SamplingChecksPassExactlyTheLegalSet : Prop :=
  ∀ a b : Int, samplingCheck a b = none ↔
    (a = 1 ∨ a = 2 ∨ a = 4) ∧ (b = 0 ∨ b = 1 ∨ b = 2 ∨ b = 4)

/-- R91, R92, R93, in the order of R96, for both commands: with the destination's length that of R26 (for `SUBSAMPLE`
with a legal pair, the padded one), `E_DIM`, then `E_ADDR`, then `E_OVERLAP`, over unbounded integers. -/
def Obligations.ArrayErrorsOfBothCommands : Prop :=
  ∀ (i : Instr) (s : State) (H W src dst dlen : Nat),
    s.height.toNat = H → s.width.toNat = W → s.src.toNat = src → s.dst.toNat = dst →
    (i = .toycbcr ∧ dlen = 3 * H * W ∨
      (∃ a b : Int, (a = 1 ∨ a = 2 ∨ a = 4) ∧ (b = 0 ∨ b = 1 ∨ b = 2 ∨ b = 4) ∧ i = .subsample a b) ∧
        dlen = 3 * (H + H % 2) * (W + W % 2)) →
    (H = 0 ∨ W = 0 → exec i s = .next (failedWith 4 s)) ∧
    (¬(H = 0 ∨ W = 0) ∧ (s.cfg.memSize < src + 3 * H * W ∨ s.cfg.memSize < dst + dlen) →
      exec i s = .next (failedWith 5 s)) ∧
    (¬(H = 0 ∨ W = 0) ∧ ¬(s.cfg.memSize < src + 3 * H * W ∨ s.cfg.memSize < dst + dlen) ∧
      (src < dst + dlen ∧ dst < src + 3 * H * W) →
      exec i s = .next (failedWith 6 s))

/-- R87, R57: `TOYCBCR` never reports InvalidSamplingSpec nor `E_OPCODE`. -/
def Obligations.ToycbcrNeverReportsSampling : Prop :=
  ∀ s t : State, exec .toycbcr s = .next t →
    t.status = 0 ∨ t.status = 4 ∨ t.status = 5 ∨ t.status = 6

/-! ### Both commands -/

/-- R12, R14, R86: every command finishes (R113's inference from R50, R59), with a code of 0 to 7 in `STATUS`; `OUT_H`
and `OUT_W` are at least 1 exactly when it succeeded (R12's inference from R14, R91). -/
def Obligations.EveryCommandFinishes : Prop :=
  ∀ (i : Instr) (s : State), ∃ t, exec i s = .next t ∧ t.status.toNat ≤ 7 ∧
    (t.status = 0 ↔ 1 ≤ t.outH.toNat) ∧ (t.status = 0 ↔ 1 ≤ t.outW.toNat)

/-- R9 (iii), R26, R92, R95: what a command leaves alone. Operand registers, parameters and the model's own fields
always; all of memory when it fails, and then the result registers are 0; when it succeeds, every byte outside the
`3·OUT_H·OUT_W` bytes at `DST`, which lie inside `MEM`, and every byte of the source. -/
def Obligations.CommandFrame : Prop :=
  ∀ (i : Instr) (s t : State), exec i s = .next t →
    SameApartFromResults s t ∧
    (t.status ≠ 0 → t.bytes = 0 ∧ t.outH = 0 ∧ t.outW = 0 ∧ MemSame s t) ∧
    (t.status = 0 →
      MemSameOutside s.dst.toNat (3 * t.outH.toNat * t.outW.toNat) s t ∧
      s.dst.toNat + 3 * t.outH.toNat * t.outW.toNat ≤ s.cfg.memSize ∧
      ∀ j, j < 3 * s.height.toNat * s.width.toNat → memRead t (s.src.toNat + j) = memRead s (s.src.toNat + j))

/-- R17, R98: no command's behaviour depends on `STATUS`, `BYTES`, `OUT_H` or `OUT_W`; after a failure the next command
runs exactly as if it had not happened. -/
def Obligations.CommandsIgnoreTheResultRegisters : Prop :=
  ∀ (i : Instr) (s : State) (x y z u : Word),
    exec i { s with status := x, bytes := y, outH := z, outW := u } = exec i s

/-- R77, R21, R58: a command run again on its own result state gives the same bytes and the same result registers. -/
def Obligations.RepeatedCommandGivesTheSameResult : Prop :=
  ∀ (i : Instr) (s t : State), exec i s = .next t →
    ∃ u, exec i t = .next u ∧ MemSame t u ∧
      u.status = t.status ∧ u.bytes = t.bytes ∧ u.outH = t.outH ∧ u.outW = t.outW

/-! ### TOYCBCR -/

/-- R50, R26, R27, R55: on legal arrays `TOYCBCR` completes; every pixel of the destination is `YCC` of the source pixel
of its row and column; `STATUS` = `BYTES` = 0, `OUT_H` = H, `OUT_W` = W; every other byte and register is as it was. -/
def Obligations.ToycbcrTransformsEveryPixel : Prop :=
  ∀ (s : State) (H W : Nat), s.height.toNat = H → s.width.toNat = W →
    ArraysLegal s (3 * H * W) (3 * H * W) →
    ∃ t, exec .toycbcr s = .next t ∧
      t.status = 0 ∧ t.bytes = 0 ∧ t.outH = s.height ∧ t.outW = s.width ∧
      (∀ r c, r < H → c < W →
        (memRead t (pixelAddr s.dst.toNat W r c 0), memRead t (pixelAddr s.dst.toNat W r c 1),
          memRead t (pixelAddr s.dst.toNat W r c 2)) =
        ycc s.cfg.roundTie (memRead s (pixelAddr s.src.toNat W r c 0))
          (memRead s (pixelAddr s.src.toNat W r c 1)) (memRead s (pixelAddr s.src.toNat W r c 2))) ∧
      MemSameOutside s.dst.toNat (3 * H * W) s t ∧ SameApartFromResults s t

/-- R58 (the spec's inference from R50, R55): an output pixel depends on the input pixel of its row and column alone:
two runs that agree on the operand registers, the parameters and that one pixel agree on its output, whatever else
their memories hold. -/
def Obligations.ToycbcrPixelsAreIndependent : Prop :=
  ∀ (s s' t t' : State) (r c : Nat),
    s'.src = s.src → s'.dst = s.dst → s'.height = s.height → s'.width = s.width → s'.cfg = s.cfg →
    r < s.height.toNat → c < s.width.toNat →
    (∀ k, k < 3 → memRead s' (pixelAddr s.src.toNat s.width.toNat r c k) =
      memRead s (pixelAddr s.src.toNat s.width.toNat r c k)) →
    exec .toycbcr s = .next t → exec .toycbcr s' = .next t' →
    t'.status = t.status ∧ (t.status = 0 → ∀ k, k < 3 →
      memRead t' (pixelAddr s.dst.toNat s.width.toNat r c k) =
        memRead t (pixelAddr s.dst.toNat s.width.toNat r c k))

/-- R6: `rdiv(n, d)` is n / d to the nearest integer, and at an exact half the larger neighbour under `HALF_UP`, the
even one under `HALF_EVEN`. -/
def Obligations.RdivRoundsToNearest : Prop :=
  ∀ (tie : RoundTie) (n d : Int), 0 < d →
    |2 * n - 2 * d * rdiv tie n d| ≤ d ∧
    ((2 * n) % (2 * d) = d →
      (tie = .halfUp → 2 * d * rdiv tie n d = 2 * n + d) ∧ (tie = .halfEven → rdiv tie n d % 2 = 0))

/-- R51, R55: each raw value is the document's formula, with its eight decimal literals read as exact rationals, to the
nearest integer, and each output byte is that integer clamped to 0..255, under either tie rule. -/
def Obligations.YccRoundsThenClampsTheDocumentFormulas : Prop :=
  ∀ (tie : RoundTie) (r g b : Byte) (R G B : ℚ),
    R = (r.toNat : ℚ) → G = (g.toNat : ℚ) → B = (b.toNat : ℚ) →
    |(lumaRaw tie r.toNat g.toNat b.toNat : ℚ) - (0.299 * R + 0.587 * G + 0.144 * B)| ≤ 1 / 2 ∧
    |(cbRaw tie r.toNat g.toNat b.toNat : ℚ) - ((-0.299 * R - 0.587 * G + 0.866 * B) / 1.722 + 128)| ≤ 1 / 2 ∧
    |(crRaw tie r.toNat g.toNat b.toNat : ℚ) - ((0.701 * R - 0.587 * G - 0.144 * B) / 1.402 + 128)| ≤ 1 / 2 ∧
    ((ycc tie r g b).1.toNat : Int) = max 0 (min 255 (lumaRaw tie r.toNat g.toNat b.toNat)) ∧
    ((ycc tie r g b).2.1.toNat : Int) = max 0 (min 255 (cbRaw tie r.toNat g.toNat b.toNat)) ∧
    ((ycc tie r g b).2.2.toNat : Int) = max 0 (min 255 (crRaw tie r.toNat g.toNat b.toNat))

/-- The ranges the spec infers in R52 to R54 and R56 (i) from R51: those of the raw values over all bytes, under either
tie rule; each bound is reached. -/
def Obligations.YccRawRanges : Prop :=
  (∀ (tie : RoundTie) (r g b : Byte),
    (0 ≤ lumaRaw tie r.toNat g.toNat b.toNat ∧ lumaRaw tie r.toNat g.toNat b.toNat ≤ 263) ∧
    (-3 ≤ cbRaw tie r.toNat g.toNat b.toNat ∧ cbRaw tie r.toNat g.toNat b.toNat ≤ 256) ∧
    (-5 ≤ crRaw tie r.toNat g.toNat b.toNat ∧ crRaw tie r.toNat g.toNat b.toNat ≤ 256)) ∧
  lumaRaw .halfUp 0 0 0 = 0 ∧ lumaRaw .halfUp 255 255 255 = 263 ∧
  cbRaw .halfUp 255 255 0 = -3 ∧ cbRaw .halfUp 0 0 255 = 256 ∧
  crRaw .halfUp 0 255 255 = -5 ∧ crRaw .halfUp 255 0 0 = 256

/-- R56 (iii) (the spec's inference from R55 and R6), U1: after the clamp the two tie rules differ only at an exact
half whose floor is even and lies in 0 to 254, and then by one. -/
def Obligations.TieRulesDifferOnlyAtEvenHalves : Prop :=
  ∀ n d : Int, 0 < d → clampByte (rdiv .halfUp n d) ≠ clampByte (rdiv .halfEven n d) →
    (2 * n) % (2 * d) = d ∧ n / d % 2 = 0 ∧ 0 ≤ n / d ∧ n / d ≤ 254 ∧
    (clampByte (rdiv .halfUp n d)).toNat = (clampByte (rdiv .halfEven n d)).toNat + 1

/-! ### SUBSAMPLE -/

/-- R62: the divide factors of the legal values. -/
def Obligations.DivideFactorsOfTheLegalValues : Prop :=
  divideFactor 4 = some 1 ∧ divideFactor 2 = some 2 ∧ divideFactor 1 = some 4 ∧ divideFactor 0 = some 0 ∧
  (∀ s : Int, s = 1 ∨ s = 2 ∨ s = 4 → ∃ d, divideFactor s = some d ∧ (d : Int) = 4 / s) ∧
  (∀ s : Int, ¬(s = 0 ∨ s = 1 ∨ s = 2 ∨ s = 4) → divideFactor s = none)

/-- R59, R63 to R73: with a legal pair, on legal arrays, `SUBSAMPLE` completes; the destination is the document's
reconstruction of the source, step by step, in the padded shape; `BYTES` is the count the steps accumulate, untruncated;
`STATUS` = 0, `OUT_H` = H′, `OUT_W` = W′; every other byte and register is as it was. -/
def Obligations.SubsampleStoresTheReconstruction : Prop :=
  ∀ (a b : Int) (da db : Nat) (s : State) (H W : Nat), s.height.toNat = H → s.width.toNat = W →
    (a = 1 ∨ a = 2 ∨ a = 4) → (b = 0 ∨ b = 1 ∨ b = 2 ∨ b = 4) →
    divideFactor a = some da → divideFactor b = some db →
    ArraysLegal s (3 * H * W) (3 * evenUp H * evenUp W) →
    ∃ t, exec (.subsample a b) s = .next t ∧
      t.status = 0 ∧ t.bytes.toNat = accumulatedCount H W da db ∧
      t.outH.toNat = evenUp H ∧ t.outW.toNat = evenUp W ∧
      (∀ r c k, r < evenUp H → c < evenUp W → k < 3 →
        memRead t (pixelAddr s.dst.toNat (evenUp W) r c k) =
          reconstruct H W da db (samplesAt s s.src.toNat W) r c k) ∧
      MemSameOutside s.dst.toNat (3 * evenUp H * evenUp W) s t ∧ SameApartFromResults s t

/-- R74 (the spec's inference from R65, R66, R69 to R72): the closed form selects the sample that the document's steps
reconstruct, from a row and a column that exist, the row even where the factor is `da` and odd where it is `db`, the
column rounded down to a multiple of the factor but for the padded column of factor 1. -/
def Obligations.ClosedFormIsTheReconstruction : Prop :=
  ∀ (H W da db : Nat) (img : Samples) (r c k : Nat), 0 < H → 0 < W →
    (da = 1 ∨ da = 2 ∨ da = 4) → (db = 0 ∨ db = 1 ∨ db = 2 ∨ db = 4) →
    r < evenUp H → c < evenUp W → k < 3 →
    selectSamples H W da db img r c k = reconstruct H W da db img r c k ∧
    (rowSel r H da db).1 ≤ H - 1 ∧ colSel c W (rowSel r H da db).2 ≤ W - 1 ∧
    ((rowSel r H da db).1 % 2 = 0 → (rowSel r H da db).2 = da) ∧
    ((rowSel r H da db).1 % 2 = 1 → (rowSel r H da db).2 = db) ∧
    (∀ d, d = 1 ∨ d = 2 ∨ d = 4 →
      colSel c W d = if d = 1 ∧ c = W then W - 1 else d * (c / d))

/-- R78 (iii), (iv) (the spec's inference from R64 to R73): in each channel the output depends on that channel's
retained samples alone: two runs that agree on the operand registers, the parameters and, in channel k, on every luma
sample (k = 0) or every retained chroma sample (k = 1, 2) agree on the whole of channel k of the output and on the
result registers. -/
def Obligations.SubsampleIgnoresDiscardedSamples : Prop :=
  ∀ (a b : Int) (da db : Nat) (s s' t t' : State) (k : Nat),
    (a = 1 ∨ a = 2 ∨ a = 4) → (b = 0 ∨ b = 1 ∨ b = 2 ∨ b = 4) →
    divideFactor a = some da → divideFactor b = some db →
    s'.src = s.src → s'.dst = s.dst → s'.height = s.height → s'.width = s.width → s'.cfg = s.cfg → k < 3 →
    (∀ r c, r < s.height.toNat → c < s.width.toNat → (k = 0 ∨ retainedChroma da db r c = true) →
      memRead s' (pixelAddr s.src.toNat s.width.toNat r c k) =
        memRead s (pixelAddr s.src.toNat s.width.toNat r c k)) →
    exec (.subsample a b) s = .next t → exec (.subsample a b) s' = .next t' →
    t'.status = t.status ∧ t'.bytes = t.bytes ∧ t'.outH = t.outH ∧ t'.outW = t.outW ∧
    (t.status = 0 → ∀ r c, r < t.outH.toNat → c < t.outW.toNat →
      memRead t' (pixelAddr s.dst.toNat t.outW.toNat r c k) =
        memRead t (pixelAddr s.dst.toNat t.outW.toNat r c k))

/-- R75 (the spec's inference from R68, R74): `SUBSAMPLE 4, 4` is a padded copy: each output sample is the source
sample of its row and column, or of the last row or column; the count is 3·H·W; and for even H and W the output bytes
are the source bytes. -/
def Obligations.FullSamplingIsAPaddedCopy : Prop :=
  ∀ (s t : State) (H W : Nat), s.height.toNat = H → s.width.toNat = W →
    exec (.subsample 4 4) s = .next t → t.status = 0 →
    t.bytes.toNat = 3 * H * W ∧
    (∀ r c k, r < evenUp H → c < evenUp W → k < 3 →
      memRead t (pixelAddr s.dst.toNat (evenUp W) r c k) =
        memRead s (pixelAddr s.src.toNat W (min r (H - 1)) (min c (W - 1)) k)) ∧
    (H % 2 = 0 → W % 2 = 0 → ∀ j, j < 3 * H * W →
      memRead t (s.dst.toNat + j) = memRead s (s.src.toNat + j))

/-- R71, and R78 (v) (the spec's inference): with b = 0 rows 2i and 2i + 1 of the output hold the same chroma. -/
def Obligations.ZeroSecondRowDuplicatesChroma : Prop :=
  ∀ (a : Int) (s t : State) (i c k : Nat), exec (.subsample a 0) s = .next t → t.status = 0 →
    2 * i + 1 < t.outH.toNat → c < t.outW.toNat → k = 1 ∨ k = 2 →
    memRead t (pixelAddr s.dst.toNat t.outW.toNat (2 * i + 1) c k) =
      memRead t (pixelAddr s.dst.toNat t.outW.toNat (2 * i) c k)

/-- R78 (v) (the spec's inference from R69 to R72): for odd H the padded row equals the row above it, and for odd W the
padded column the column before it, in all three channels, whatever a and b are. -/
def Obligations.PaddingRepeatsTheLastRowAndColumn : Prop :=
  ∀ (a b : Int) (s t : State) (H W : Nat), s.height.toNat = H → s.width.toNat = W →
    exec (.subsample a b) s = .next t → t.status = 0 →
    (H % 2 = 1 → ∀ c k, c < evenUp W → k < 3 →
      memRead t (pixelAddr s.dst.toNat (evenUp W) H c k) =
        memRead t (pixelAddr s.dst.toNat (evenUp W) (H - 1) c k)) ∧
    (W % 2 = 1 → ∀ r k, r < evenUp H → k < 3 →
      memRead t (pixelAddr s.dst.toNat (evenUp W) r W k) =
        memRead t (pixelAddr s.dst.toNat (evenUp W) r (W - 1) k))

/-- R78 (v) (the spec's inference from R69 to R71): within an output row whose factor is d, the columns of one block of
d hold the same chroma. -/
def Obligations.ChromaIsConstantOnBlocks : Prop :=
  ∀ (a b : Int) (da db : Nat) (s t : State) (r c c' k : Nat),
    divideFactor a = some da → divideFactor b = some db →
    exec (.subsample a b) s = .next t → t.status = 0 →
    r < s.height.toNat → c < t.outW.toNat → c' < t.outW.toNat → k = 1 ∨ k = 2 →
    c / (if r % 2 = 0 ∨ b = 0 then da else db) = c' / (if r % 2 = 0 ∨ b = 0 then da else db) →
    memRead t (pixelAddr s.dst.toNat t.outW.toNat r c k) = memRead t (pixelAddr s.dst.toNat t.outW.toNat r c' k)

/-- R76 (the spec's inference from R68): the order of the byte counts, their strictness, and their bounds, for all H, W
≥ 1. -/
def Obligations.ByteCountOrder : Prop :=
  ∀ H W : Nat, 0 < H → 0 < W →
    (∀ (a b a' b' : Int) (da db da' db' : Nat),
      (a = 1 ∨ a = 2 ∨ a = 4) → (b = 0 ∨ b = 1 ∨ b = 2 ∨ b = 4) →
      (a' = 1 ∨ a' = 2 ∨ a' = 4) → (b' = 0 ∨ b' = 1 ∨ b' = 2 ∨ b' = 4) →
      divideFactor a = some da → divideFactor b = some db →
      divideFactor a' = some da' → divideFactor b' = some db' →
      a ≤ a' → b ≤ b' → sampleCount H W da db ≤ sampleCount H W da' db') ∧
    sampleCount H W 4 0 ≤ sampleCount H W 2 0 ∧ sampleCount H W 2 0 ≤ sampleCount H W 1 1 ∧
    (sampleCount H W 2 2 < sampleCount H W 1 1 ↔ 2 ≤ W) ∧
    (W = 1 → sampleCount H W 2 2 = sampleCount H W 1 1) ∧
    (∀ (a b : Int) (da db : Nat),
      (a = 1 ∨ a = 2 ∨ a = 4) → (b = 0 ∨ b = 1 ∨ b = 2 ∨ b = 4) →
      divideFactor a = some da → divideFactor b = some db →
      H * W + 2 * ceilDiv H 2 * ceilDiv W 4 ≤ sampleCount H W da db ∧ sampleCount H W da db ≤ 3 * H * W)

/-- R68: the closed count is the one the steps accumulate; for 4:4:4 it is 3·H·W; and, the spec's inference in R68 from
DF(s) = 4/s of R62, for H even and W a multiple of 4 it is H·W·(4 + a + b) / 4. -/
def Obligations.ByteCountFormula : Prop :=
  ∀ (H W : Nat) (a b : Int) (da db : Nat),
    (a = 1 ∨ a = 2 ∨ a = 4) → (b = 0 ∨ b = 1 ∨ b = 2 ∨ b = 4) →
    divideFactor a = some da → divideFactor b = some db →
    accumulatedCount H W da db = sampleCount H W da db ∧
    sampleCount H W 1 1 = 3 * H * W ∧
    (H % 2 = 0 → W % 4 = 0 → 4 * (sampleCount H W da db : Int) = H * W * (4 + a + b))

/-- R78 (ii) (the spec's inference from R65, R66, R68): `BYTES` of a successful `SUBSAMPLE` is the number of samples
retained: every luma sample, and for each chroma plane the samples that `retainedChroma` picks out of the source. -/
def Obligations.ByteCountIsTheNumberRetained : Prop :=
  ∀ (a b : Int) (da db : Nat) (s t : State) (H W : Nat), s.height.toNat = H → s.width.toNat = W →
    divideFactor a = some da → divideFactor b = some db →
    exec (.subsample a b) s = .next t → t.status = 0 →
    t.bytes.toNat = H * W +
      2 * ((List.range H).map fun r => ((List.range W).countP fun c => retainedChroma da db r c)).sum
end

