-- ==== Sys2Proof/Laws/State.lean ====
section
/-! SUPPORT. One lemma for each field of State and each shared update of it (Machine/Ops.lean). -/

namespace Sys2Proof.Machine

open Sys2Proof

/-! ### memWrite -/

@[simp] theorem memWrite_src (addr : Nat) (v : Byte) (s : State) : (memWrite addr v s).src = s.src := rfl
@[simp] theorem memWrite_dst (addr : Nat) (v : Byte) (s : State) : (memWrite addr v s).dst = s.dst := rfl
@[simp] theorem memWrite_height (addr : Nat) (v : Byte) (s : State) : (memWrite addr v s).height = s.height := rfl
@[simp] theorem memWrite_width (addr : Nat) (v : Byte) (s : State) : (memWrite addr v s).width = s.width := rfl
@[simp] theorem memWrite_status (addr : Nat) (v : Byte) (s : State) : (memWrite addr v s).status = s.status := rfl
@[simp] theorem memWrite_bytes (addr : Nat) (v : Byte) (s : State) : (memWrite addr v s).bytes = s.bytes := rfl
@[simp] theorem memWrite_outH (addr : Nat) (v : Byte) (s : State) : (memWrite addr v s).outH = s.outH := rfl
@[simp] theorem memWrite_outW (addr : Nat) (v : Byte) (s : State) : (memWrite addr v s).outW = s.outW := rfl
@[simp] theorem memWrite_mem (addr : Nat) (v : Byte) (s : State) : (memWrite addr v s).mem = s.mem.store addr v := rfl
@[simp] theorem memWrite_cfg (addr : Nat) (v : Byte) (s : State) : (memWrite addr v s).cfg = s.cfg := rfl
@[simp] theorem memWrite_powerUps (addr : Nat) (v : Byte) (s : State) : (memWrite addr v s).powerUps = s.powerUps := rfl
@[simp] theorem memWrite_pending (addr : Nat) (v : Byte) (s : State) : (memWrite addr v s).pending = s.pending := rfl
@[simp] theorem memWrite_answers (addr : Nat) (v : Byte) (s : State) : (memWrite addr v s).answers = s.answers := rfl

/-! ### cmdError -/

@[simp] theorem cmdError_src (e : CmdErr) (s : State) : (cmdError e s).src = s.src := rfl
@[simp] theorem cmdError_dst (e : CmdErr) (s : State) : (cmdError e s).dst = s.dst := rfl
@[simp] theorem cmdError_height (e : CmdErr) (s : State) : (cmdError e s).height = s.height := rfl
@[simp] theorem cmdError_width (e : CmdErr) (s : State) : (cmdError e s).width = s.width := rfl
@[simp] theorem cmdError_status (e : CmdErr) (s : State) : (cmdError e s).status = errStatus e := rfl
@[simp] theorem cmdError_bytes (e : CmdErr) (s : State) : (cmdError e s).bytes = 0 := rfl
@[simp] theorem cmdError_outH (e : CmdErr) (s : State) : (cmdError e s).outH = 0 := rfl
@[simp] theorem cmdError_outW (e : CmdErr) (s : State) : (cmdError e s).outW = 0 := rfl
@[simp] theorem cmdError_mem (e : CmdErr) (s : State) : (cmdError e s).mem = s.mem := rfl
@[simp] theorem cmdError_cfg (e : CmdErr) (s : State) : (cmdError e s).cfg = s.cfg := rfl
@[simp] theorem cmdError_powerUps (e : CmdErr) (s : State) : (cmdError e s).powerUps = s.powerUps := rfl
@[simp] theorem cmdError_pending (e : CmdErr) (s : State) : (cmdError e s).pending = s.pending := rfl
@[simp] theorem cmdError_answers (e : CmdErr) (s : State) : (cmdError e s).answers = s.answers := rfl

/-! ### cmdDone -/

@[simp] theorem cmdDone_src (n h w : Nat) (s : State) : (cmdDone n h w s).src = s.src := rfl
@[simp] theorem cmdDone_dst (n h w : Nat) (s : State) : (cmdDone n h w s).dst = s.dst := rfl
@[simp] theorem cmdDone_height (n h w : Nat) (s : State) : (cmdDone n h w s).height = s.height := rfl
@[simp] theorem cmdDone_width (n h w : Nat) (s : State) : (cmdDone n h w s).width = s.width := rfl
@[simp] theorem cmdDone_status (n h w : Nat) (s : State) : (cmdDone n h w s).status = 0 := rfl
@[simp] theorem cmdDone_bytes (n h w : Nat) (s : State) : (cmdDone n h w s).bytes = BitVec.ofNat 32 n := rfl
@[simp] theorem cmdDone_outH (n h w : Nat) (s : State) : (cmdDone n h w s).outH = BitVec.ofNat 32 h := rfl
@[simp] theorem cmdDone_outW (n h w : Nat) (s : State) : (cmdDone n h w s).outW = BitVec.ofNat 32 w := rfl
@[simp] theorem cmdDone_mem (n h w : Nat) (s : State) : (cmdDone n h w s).mem = s.mem := rfl
@[simp] theorem cmdDone_cfg (n h w : Nat) (s : State) : (cmdDone n h w s).cfg = s.cfg := rfl
@[simp] theorem cmdDone_powerUps (n h w : Nat) (s : State) : (cmdDone n h w s).powerUps = s.powerUps := rfl
@[simp] theorem cmdDone_pending (n h w : Nat) (s : State) : (cmdDone n h w s).pending = s.pending := rfl
@[simp] theorem cmdDone_answers (n h w : Nat) (s : State) : (cmdDone n h w s).answers = s.answers := rfl

/-! ### hardwareReset -/

@[simp] theorem hardwareReset_src (s : State) : (hardwareReset s).src = 0 := rfl
@[simp] theorem hardwareReset_dst (s : State) : (hardwareReset s).dst = 0 := rfl
@[simp] theorem hardwareReset_height (s : State) : (hardwareReset s).height = 0 := rfl
@[simp] theorem hardwareReset_width (s : State) : (hardwareReset s).width = 0 := rfl
@[simp] theorem hardwareReset_status (s : State) : (hardwareReset s).status = 0 := rfl
@[simp] theorem hardwareReset_bytes (s : State) : (hardwareReset s).bytes = 0 := rfl
@[simp] theorem hardwareReset_outH (s : State) : (hardwareReset s).outH = 0 := rfl
@[simp] theorem hardwareReset_outW (s : State) : (hardwareReset s).outW = 0 := rfl
@[simp] theorem hardwareReset_mem (s : State) : (hardwareReset s).mem = s.mem := rfl
@[simp] theorem hardwareReset_cfg (s : State) : (hardwareReset s).cfg = s.cfg := rfl
@[simp] theorem hardwareReset_powerUps (s : State) : (hardwareReset s).powerUps = s.powerUps := rfl
@[simp] theorem hardwareReset_pending (s : State) : (hardwareReset s).pending = s.pending := rfl
@[simp] theorem hardwareReset_answers (s : State) : (hardwareReset s).answers = s.answers := rfl

/-! ### powerOnReset -/

@[simp] theorem powerOnReset_src (s : State) : (powerOnReset s).src = 0 := rfl
@[simp] theorem powerOnReset_dst (s : State) : (powerOnReset s).dst = 0 := rfl
@[simp] theorem powerOnReset_height (s : State) : (powerOnReset s).height = 0 := rfl
@[simp] theorem powerOnReset_width (s : State) : (powerOnReset s).width = 0 := rfl
@[simp] theorem powerOnReset_status (s : State) : (powerOnReset s).status = 0 := rfl
@[simp] theorem powerOnReset_bytes (s : State) : (powerOnReset s).bytes = 0 := rfl
@[simp] theorem powerOnReset_outH (s : State) : (powerOnReset s).outH = 0 := rfl
@[simp] theorem powerOnReset_outW (s : State) : (powerOnReset s).outW = 0 := rfl
@[simp] theorem powerOnReset_mem (s : State) : (powerOnReset s).mem = [] := rfl
@[simp] theorem powerOnReset_cfg (s : State) : (powerOnReset s).cfg = s.cfg := rfl
@[simp] theorem powerOnReset_powerUps (s : State) : (powerOnReset s).powerUps = s.powerUps + 1 := rfl
@[simp] theorem powerOnReset_pending (s : State) : (powerOnReset s).pending = s.pending := rfl
@[simp] theorem powerOnReset_answers (s : State) : (powerOnReset s).answers = s.answers := rfl

/-! ### The register file -/

@[simp] theorem regRead_src (s : State) : regRead s 0 = s.src := rfl
@[simp] theorem regRead_dst (s : State) : regRead s 1 = s.dst := rfl
@[simp] theorem regRead_height (s : State) : regRead s 2 = s.height := rfl
@[simp] theorem regRead_width (s : State) : regRead s 3 = s.width := rfl
@[simp] theorem regRead_cmd (s : State) : regRead s 4 = 0 := rfl
@[simp] theorem regRead_status (s : State) : regRead s 5 = s.status := rfl
@[simp] theorem regRead_bytes (s : State) : regRead s 6 = s.bytes := rfl
@[simp] theorem regRead_outH (s : State) : regRead s 7 = s.outH := rfl
@[simp] theorem regRead_outW (s : State) : regRead s 8 = s.outW := rfl

/-- An absent register reads 0 (R15). -/
theorem regRead_absent (s : State) {i : Nat} (h : 8 < i) : regRead s i = 0 := by
  obtain ⟨j, rfl⟩ : ∃ j, i = j + 9 := ⟨i - 9, by omega⟩
  rfl

/-- Everything a register write can do (R15, R80): one operand register takes the value, or nothing changes. -/
theorem regWrite_cases (i : Nat) (v : Word) (s : State) :
    (i = 0 ∧ regWrite i v s = { s with src := v }) ∨ (i = 1 ∧ regWrite i v s = { s with dst := v }) ∨
    (i = 2 ∧ regWrite i v s = { s with height := v }) ∨ (i = 3 ∧ regWrite i v s = { s with width := v }) ∨
    (4 ≤ i ∧ regWrite i v s = s) := by
  rcases i with _ | _ | _ | _ | i <;> simp [regWrite]

/-! ### Events -/

@[simp] theorem issue_pending (es : List Event) (s : State) : (issue es s).pending = s.pending ++ es := rfl
@[simp] theorem withFetchWord_pending (s : State) (nbits w : Nat) :
    (s.withFetchWord nbits w).pending = .wr 4 (tableWord nbits w) :: s.pending := rfl

end Sys2Proof.Machine
end

