-- ==== Sys2Proof/Laws/Checks.lean ====
section
/-! SUPPORT. The checks of R96, the divide factors of R62, and the arithmetic of R6: one lemma a function. -/

namespace Sys2Proof.Machine

open Sys2Proof

/-- The array checks all pass exactly when the operand registers describe legal arrays (R91 to R93). -/
theorem arrayCheck_none_iff (s : State) {slen dlen : Nat} :
    arrayCheck s.cfg (sampleOperands s) slen dlen = none ↔ ArraysLegal s slen dlen := by
  unfold arrayCheck sampleOperands ArraysLegal
  dsimp only
  split_ifs <;> simp only [true_iff, false_iff] <;> omega

/-- An error of the array checks is one of the codes 4, 5, 6 (R96). -/
theorem arrayCheck_some {p : Params} {o : Operands} {slen dlen : Nat} {e : CmdErr}
    (h : arrayCheck p o slen dlen = some e) : e = .dim ∨ e = .addr ∨ e = .overlap := by
  unfold arrayCheck at h
  split_ifs at h <;> cases h <;> decide

/-- An error of the sampling checks is one of the codes 1, 2, 3 (R60). -/
theorem samplingCheck_some {a b : Int} {e : CmdErr} (h : samplingCheck a b = some e) :
    e = .specMax ∨ e = .specNeg ∨ e = .specThree := by
  unfold samplingCheck at h
  split_ifs at h <;> cases h <;> decide

/-- The legal set (R61), one way: what validation lets through. -/
theorem samplingCheck_legal {a b : Int} (h : samplingCheck a b = none) : legalSpec a b := by
  unfold samplingCheck at h
  unfold legalSpec
  split_ifs at h
  omega

/-- The divide factors of a legal pair (R62): `da` ∈ {1, 2, 4}, `db` ∈ {0, 1, 2, 4}. -/
theorem legalFactor_of_legal {a b : Int} (h : legalSpec a b) :
    (legalFactor a = 1 ∨ legalFactor a = 2 ∨ legalFactor a = 4) ∧
      (legalFactor b = 0 ∨ legalFactor b = 1 ∨ legalFactor b = 2 ∨ legalFactor b = 4) := by
  obtain ⟨ha, hb⟩ := h
  rcases ha with rfl | rfl | rfl <;> rcases hb with rfl | rfl | rfl | rfl <;> decide

/-- `ceil_div(x, d)` for the four divisors the block uses. -/
theorem ceilDiv_le_self {x d : Nat} (hd : 0 < d) : ceilDiv x d ≤ x := by
  unfold ceilDiv
  rcases Nat.eq_zero_or_pos x with rfl | hx
  · rw [Nat.div_eq_of_lt (by omega)]
  · rw [Nat.div_le_iff_le_mul_add_pred hd]
    have := Nat.le_mul_of_pos_left x hd
    omega

theorem ceilDiv_pos {x d : Nat} (hx : 0 < x) (hd : 0 < d) : 0 < ceilDiv x d := by
  unfold ceilDiv
  exact Nat.div_pos (by omega) hd

/-- `d·(ceil_div(x, d) − 1)` is below x: the last retained column exists (R74). -/
theorem mul_ceilDiv_pred_lt {x d : Nat} (hx : 0 < x) (hd : 0 < d) : d * (ceilDiv x d - 1) < x := by
  have h1 : d * ceilDiv x d ≤ x + d - 1 := Nat.mul_div_le _ _
  have h2 := ceilDiv_pos hx hd
  rw [Nat.mul_sub_one]
  have h3 : d ≤ d * ceilDiv x d := Nat.le_mul_of_pos_right _ h2
  omega

/-- Every source column the closed form selects exists (R74). -/
theorem colSel_lt {c w d : Nat} (hw : 0 < w) (hd : 0 < d) : colSel c w d < w :=
  lt_of_le_of_lt (Nat.mul_le_mul_left d (Nat.min_le_right _ _)) (mul_ceilDiv_pred_lt hw hd)

/-- Every source row the closed form selects exists, with a factor that is not 0 (R74). -/
theorem rowSel_lt {r h da db : Nat} (hda : 0 < da) (hh : 0 < h) (hr : r < evenUp h) :
    (rowSel r h da db).1 < h ∧ 0 < (rowSel r h da db).2 := by
  unfold evenUp at hr
  unfold rowSel
  split
  · dsimp only; omega
  · split
    · dsimp only; split <;> omega
    · dsimp only; omega

/-- A region inside `MEM` has fewer than 2^32 samples (R13): 3·H·W is a multiple of 3, and 2^32 is not. -/
theorem samples_lt_of_inside {s : State} {H W : Nat} (h : 3 * H * W ≤ s.cfg.memSize) : 3 * (H * W) < 2 ^ 32 := by
  have := s.cfg.lastAddr.isLt
  unfold Params.memSize at h
  rw [Nat.mul_assoc] at h
  omega

/-- A count below 2^32 is not truncated by its register. -/
theorem ofNat_toNat_of_lt {n : Nat} (h : n < 2 ^ 32) : (BitVec.ofNat 32 n).toNat = n := by
  rw [BitVec.toNat_ofNat, Nat.mod_eq_of_lt h]

/-- Decimation retains no more samples than there are (R13). -/
theorem sampleCount_le {H W da db : Nat} (hda : 0 < da) : sampleCount H W da db ≤ 3 * (H * W) := by
  unfold sampleCount
  have e : ceilDiv H 2 + H / 2 = H := by unfold ceilDiv; omega
  have hA : ceilDiv H 2 * ceilDiv W da ≤ ceilDiv H 2 * W := Nat.mul_le_mul_left _ (ceilDiv_le_self hda)
  have hB : (if db = 0 then 0 else H / 2 * ceilDiv W db) ≤ H / 2 * W := by
    split
    · omega
    · exact Nat.mul_le_mul_left _ (ceilDiv_le_self (by omega))
  have : ceilDiv H 2 * W + H / 2 * W = H * W := by rw [← Nat.add_mul, e]
  omega

/-- The error of a failed command is not code 0. -/
theorem errStatus_ne_zero (e : CmdErr) : errStatus e ≠ 0 := by cases e <;> decide

end Sys2Proof.Machine
end

