-- ==== Sys2Proof/Laws/Memory.lean ====
section
/-! SUPPORT. Frame memory: a read after a write, and the canonical form (R25, R104). -/

namespace Sys2Proof.Machine

open Sys2Proof

/-- A lookup after a store: the stored byte at its address, every other address as before. -/
theorem lookup_store (m : Memory) (a b : Nat) (v : Byte) :
    (m.store a v).lookup b = if b = a then some v else m.lookup b := by
  induction m with
  | nil => simp [Memory.store, Memory.lookup]
  | cons cell rest ih =>
    obtain ⟨k, u⟩ := cell
    simp only [Memory.store]
    split
    · simp [Memory.lookup]
    · split
      · subst a; by_cases h : b = k <;> simp [Memory.lookup, h]
      · by_cases h : b = k
        · subst b; simp [Memory.lookup]; omega
        · simp [Memory.lookup, h, ih]

/-- `MemRead` after `MemWrite`: the byte last written (R25), every other byte as before. -/
theorem memRead_memWrite (s : State) (a b : Nat) (v : Byte) :
    memRead (memWrite a v s) b = if b = a then v else memRead s b := by
  simp only [memRead, memWrite_mem, memWrite_powerUps, lookup_store]
  by_cases h : b = a <;> simp [h]

/-- Memory reads see nothing of a state but its memory and its power-on count. -/
theorem memRead_congr {s t : State} (hm : t.mem = s.mem) (hp : t.powerUps = s.powerUps) (a : Nat) :
    memRead t a = memRead s a := by
  simp only [memRead, hm, hp]

/-- The head of a stored memory: the smaller of the two heads. -/
theorem wf_cons_of_lt {k : Nat} {u : Byte} {m : Memory} (hm : m.wf = true)
    (hk : ∀ cell ∈ m, k < cell.1) : Memory.wf ((k, u) :: m) = true := by
  cases m with
  | nil => rfl
  | cons c rest => simp [Memory.wf, hm, hk c (by simp)]

/-- In canonical form every later address is above the first. -/
theorem head_lt_of_wf {k : Nat} {u : Byte} {m : Memory} (h : Memory.wf ((k, u) :: m) = true) :
    m.wf = true ∧ ∀ cell ∈ m, k < cell.1 := by
  induction m generalizing k u with
  | nil => simp [Memory.wf]
  | cons c rest ih =>
    obtain ⟨l, v⟩ := c
    simp only [Memory.wf, Bool.and_eq_true, decide_eq_true_eq] at h
    obtain ⟨hr, hl⟩ := ih h.2
    refine ⟨h.2, ?_⟩
    intro cell hc
    rcases List.mem_cons.mp hc with rfl | hc
    · exact h.1
    · have := hl cell hc; omega

/-- The addresses listed after a store: the stored one and those before. -/
theorem mem_store {m : Memory} {a : Nat} {v : Byte} {cell : Host.Cell} (h : cell ∈ m.store a v) :
    cell = (a, v) ∨ cell ∈ m := by
  induction m with
  | nil => simpa [Memory.store] using h
  | cons c rest ih =>
    obtain ⟨k, u⟩ := c
    simp only [Memory.store] at h
    split at h
    · simpa using h
    · split at h
      · rcases List.mem_cons.mp h with h | h
        · exact Or.inl h
        · exact Or.inr (List.mem_cons_of_mem _ h)
      · rcases List.mem_cons.mp h with h | h
        · exact Or.inr (h ▸ List.mem_cons_self)
        · exact (ih h).imp_right (List.mem_cons_of_mem _)

/-- A store keeps the canonical form. -/
theorem store_wf {m : Memory} (a : Nat) (v : Byte) (h : m.wf = true) : (m.store a v).wf = true := by
  induction m with
  | nil => rfl
  | cons c rest ih =>
    obtain ⟨k, u⟩ := c
    obtain ⟨hr, hk⟩ := head_lt_of_wf h
    simp only [Memory.store]
    split
    · rename_i hlt
      refine wf_cons_of_lt h ?_
      intro cell hc
      rcases List.mem_cons.mp hc with rfl | hc
      · exact hlt
      · have := hk cell hc; omega
    · split
      · rename_i _ heq
        subst heq
        exact wf_cons_of_lt hr hk
      · rename_i hlt hne
        refine wf_cons_of_lt (ih hr) ?_
        intro cell hc
        rcases mem_store hc with rfl | hc
        · show k < a; omega
        · exact hk cell hc

/-- `MemWrite` keeps the canonical form. -/
theorem memWrite_wf {s : State} (a : Nat) (v : Byte) (h : s.mem.wf = true) :
    (memWrite a v s).mem.wf = true := store_wf a v h

/-- The memory after reset has the canonical form. -/
theorem reset_mem_wf : State.reset.mem.wf = true := rfl

/-- In canonical form two memories with the same stored bytes are equal. -/
theorem memory_ext {m n : Memory} (hm : m.wf = true) (hn : n.wf = true)
    (h : ∀ a, m.lookup a = n.lookup a) : m = n := by
  induction m generalizing n with
  | nil =>
    cases n with
    | nil => rfl
    | cons c rest => have := h c.1; simp [Memory.lookup] at this
  | cons c rest ih =>
    obtain ⟨k, u⟩ := c
    obtain ⟨hr, hk⟩ := head_lt_of_wf hm
    have absent : ∀ (p : Memory) (a : Nat), (∀ cell ∈ p, a < cell.1) → p.lookup a = none := by
      intro p a hp
      induction p with
      | nil => rfl
      | cons d ps ihp =>
        have hd := hp d (by simp)
        simp only [Memory.lookup]
        rw [if_neg (by omega)]
        exact ihp (fun cell hc => hp cell (List.mem_cons_of_mem _ hc))
    cases n with
    | nil => have := h k; simp [Memory.lookup] at this
    | cons d ps =>
      obtain ⟨l, w⟩ := d
      obtain ⟨hps, hl⟩ := head_lt_of_wf hn
      have hkl : k = l := by
        rcases Nat.lt_trichotomy k l with hlt | heq | hgt
        · have h1 := h k
          rw [absent ((l, w) :: ps) k] at h1
          · simp [Memory.lookup] at h1
          · intro cell hc
            rcases List.mem_cons.mp hc with rfl | hc
            · exact hlt
            · have := hl cell hc; omega
        · exact heq
        · have h1 := h l
          rw [absent ((k, u) :: rest) l] at h1
          · simp [Memory.lookup] at h1
          · intro cell hc
            rcases List.mem_cons.mp hc with rfl | hc
            · exact hgt
            · have := hk cell hc; omega
      subst hkl
      have hu : u = w := by have h1 := h k; simpa [Memory.lookup] using h1
      subst hu
      have hrest : rest = ps := by
        refine ih hr hps (fun a => ?_)
        by_cases ha : a = k
        · subst ha; rw [absent rest a hk, absent ps a hl]
        · have h1 := h a
          simpa [Memory.lookup, ha] using h1
      rw [hrest]

end Sys2Proof.Machine
end

