-- ==== Sys2Proof/Laws/Loops.lean ====
section
/-! SUPPORT. The counted loops (forUpTo, forPixels): their proof rules, and what a loop that writes one pixel in each
turn leaves in memory. -/

namespace Sys2Proof.Machine

open Sys2Proof

/-- Proof rule of `for i in 0 .. n-1`. -/
theorem forUpTo_rule {n : Nat} {body : Nat → State → State} {s : State} (P : Nat → State → Prop)
    (start : P 0 s) (turn : ∀ i t, i < n → P i t → P (i + 1) (body i t)) : P n (forUpTo n body s) := by
  induction n with
  | zero => exact start
  | succ n ih => exact turn n _ (by omega) (ih fun i t hi => turn i t (by omega))

/-- Proof rule of the pixel loops, over the number of pixels done. -/
theorem forPixels_rule {h w : Nat} {body : Nat → Nat → State → State} {s : State} (P : Nat → State → Prop)
    (start : P 0 s)
    (turn : ∀ r c t, r < h → c < w → P (r * w + c) t → P (r * w + c + 1) (body r c t)) :
    P (h * w) (forPixels h w body s) := by
  refine forUpTo_rule (n := h) (fun r t => P (r * w) t) (by simpa using start) ?_
  intro r t hr ht
  have row := forUpTo_rule (n := w) (body := fun c => body r c) (s := t) (fun c t => P (r * w + c) t)
    (by simpa using ht) (fun c t hc hp => turn r c t hr hc hp)
  simpa [Nat.succ_mul] using row

/-- Nothing but memory differs. -/
abbrev OnlyMem (s t : State) : Prop := t = { s with mem := t.mem }

theorem onlyMem_refl (s : State) : OnlyMem s s := rfl

/-- A byte write changes memory only. -/
theorem onlyMem_memWrite {s t : State} (a : Nat) (v : Byte) (h : OnlyMem s t) : OnlyMem s (memWrite a v t) := by
  unfold OnlyMem at h ⊢
  rw [h]; rfl

/-- What the byte at `a` is once pixels 0 to n − 1 of an array at `base` of row width `w` hold the samples `f`. -/
def pixelsDone (base w : Nat) (f : Nat → Nat → Nat → Byte) (n : Nat) (s : State) (a : Nat) : Byte :=
  if base ≤ a ∧ a < base + 3 * n then f ((a - base) / 3 / w) ((a - base) / 3 % w) ((a - base) % 3)
  else memRead s a

/-- Within its array, sample `k` of pixel (r, c) is `f r c k`. -/
theorem pixelsDone_pixel {base w n : Nat} {f : Nat → Nat → Nat → Byte} {s : State} {r c k : Nat} (hc : c < w)
    (hk : k < 3) (hn : r * w + c < n) : pixelsDone base w f n s (pixelAddr base w r c k) = f r c k := by
  have e1 : (pixelAddr base w r c k - base) / 3 = r * w + c := by unfold pixelAddr; omega
  have e2 : (pixelAddr base w r c k - base) % 3 = k := by unfold pixelAddr; omega
  have e3 : (r * w + c) / w = r := by
    rw [Nat.mul_comm, Nat.mul_add_div (by omega), Nat.div_eq_of_lt hc]; omega
  have e4 : (r * w + c) % w = c := by rw [Nat.mul_comm, Nat.mul_add_mod, Nat.mod_eq_of_lt hc]
  unfold pixelsDone
  rw [if_pos (by unfold pixelAddr; omega), e1, e2, e3, e4]

/-- Three byte writes, one pixel. -/
def writePixel (base w r c : Nat) (v0 v1 v2 : Byte) (s : State) : State :=
  memWrite (pixelAddr base w r c 2) v2
    (memWrite (pixelAddr base w r c 1) v1 (memWrite (pixelAddr base w r c 0) v0 s))

/-- One more pixel written. -/
theorem pixelsDone_succ {base w : Nat} {f : Nat → Nat → Nat → Byte} {s t : State} {r c : Nat} (hc : c < w)
    (ht : ∀ a, memRead t a = pixelsDone base w f (r * w + c) s a) (a : Nat) :
    memRead (writePixel base w r c (f r c 0) (f r c 1) (f r c 2) t) a =
      pixelsDone base w f (r * w + c + 1) s a := by
  have key : ∀ k, k < 3 → pixelsDone base w f (r * w + c + 1) s (pixelAddr base w r c k) = f r c k :=
    fun k hk => pixelsDone_pixel hc hk (by omega)
  simp only [writePixel, memRead_memWrite, ht]
  by_cases h2 : a = pixelAddr base w r c 2
  · subst h2; rw [if_pos rfl, key 2 (by omega)]
  by_cases h1 : a = pixelAddr base w r c 1
  · subst h1; rw [if_neg h2, if_pos rfl, key 1 (by omega)]
  by_cases h0 : a = pixelAddr base w r c 0
  · subst h0; rw [if_neg h2, if_neg h1, if_pos rfl, key 0 (by omega)]
  rw [if_neg h2, if_neg h1, if_neg h0]
  unfold pixelAddr at h0 h1 h2
  unfold pixelsDone
  by_cases hin : base ≤ a ∧ a < base + 3 * (r * w + c)
  · rw [if_pos hin, if_pos (by omega)]
  · rw [if_neg hin, if_neg (by omega)]

/-- The spec of a loop that writes one pixel a turn: if each turn, in a state that differs from `s` in memory only and
agrees with it outside the array, writes the samples `f` of its pixel, then the whole loop changes memory only, the
array holds `f`, and every other byte is as it was. -/
theorem forPixels_writes {h w base : Nat} {body : Nat → Nat → State → State} {s : State}
    (f : Nat → Nat → Nat → Byte)
    (turn : ∀ r c t, r < h → c < w → OnlyMem s t →
      (∀ a, (a < base ∨ base + 3 * (h * w) ≤ a) → memRead t a = memRead s a) →
      body r c t = writePixel base w r c (f r c 0) (f r c 1) (f r c 2) t) :
    OnlyMem s (forPixels h w body s) ∧
      ∀ a, memRead (forPixels h w body s) a = pixelsDone base w f (h * w) s a := by
  refine forPixels_rule
    (fun n t => OnlyMem s t ∧ ∀ a, memRead t a = pixelsDone base w f n s a) ⟨rfl, ?_⟩ ?_
  · intro a
    unfold pixelsDone
    rw [if_neg (by omega)]
  · intro r c t hr hc ht
    obtain ⟨hframe, hread⟩ := ht
    have hrow : r * w + w ≤ h * w := by
      have := Nat.mul_le_mul_right w (show r + 1 ≤ h by omega)
      rw [Nat.succ_mul] at this; omega
    rw [turn r c t hr hc hframe ?_]
    · exact ⟨onlyMem_memWrite _ _ (onlyMem_memWrite _ _ (onlyMem_memWrite _ _ hframe)),
        pixelsDone_succ hc hread⟩
    · intro a ha
      rw [hread a]
      unfold pixelsDone
      rw [if_neg (by omega)]

/-- A loop whose turns keep the canonical form keeps it. -/
theorem forPixels_wf {h w : Nat} {body : Nat → Nat → State → State} {s : State} (hs : s.mem.wf = true)
    (turn : ∀ r c t, r < h → c < w → t.mem.wf = true → (body r c t).mem.wf = true) :
    (forPixels h w body s).mem.wf = true :=
  forPixels_rule (fun _ t => t.mem.wf = true) hs turn

/-- A loop whose turns write below `bound` only leaves only addresses below it listed. -/
theorem forPixels_inside {h w bound : Nat} {body : Nat → Nat → State → State} {s : State}
    (hs : ∀ cell ∈ s.mem, cell.1 < bound)
    (turn : ∀ r c t, r < h → c < w → (∀ cell ∈ t.mem, cell.1 < bound) →
      ∀ cell ∈ (body r c t).mem, cell.1 < bound) :
    ∀ cell ∈ (forPixels h w body s).mem, cell.1 < bound :=
  forPixels_rule (fun _ t => ∀ cell ∈ t.mem, cell.1 < bound) hs turn

/-- The three addresses of a pixel lie inside its array. -/
theorem pixelAddr_lt {base h w r c k : Nat} (hr : r < h) (hc : c < w) (hk : k < 3) :
    pixelAddr base w r c k < base + 3 * h * w := by
  have := Nat.mul_le_mul_right w (show r + 1 ≤ h by omega)
  rw [Nat.succ_mul] at this
  unfold pixelAddr
  rw [Nat.mul_assoc]
  omega

end Sys2Proof.Machine
end

