-- ==== Sys2Proof/Laws/Arrays.lean ====
section
/-! SUPPORT. What the array loops of the two commands leave in memory, for operands whose regions are disjoint. -/

namespace Sys2Proof.Machine

open Sys2Proof

/-- A sample of the source lies in the source region. -/
theorem source_outside {o : Operands} {dlen r c k : Nat} (hr : r < o.height) (hc : c < o.width) (hk : k < 3)
    (hd : o.src + arrayLen o.height o.width ≤ o.dst ∨ o.dst + dlen ≤ o.src) :
    pixelAddr o.src o.width r c k < o.dst ∨ o.dst + dlen ≤ pixelAddr o.src o.width r c k := by
  have h1 := pixelAddr_lt (base := o.src) hr hc hk
  have h2 : o.src ≤ pixelAddr o.src o.width r c k := by unfold pixelAddr; omega
  unfold arrayLen at hd
  omega

theorem arrayLen_eq (h w : Nat) : arrayLen h w = 3 * (h * w) := by unfold arrayLen; rw [Nat.mul_assoc]

/-- `TOYCBCR`'s loops: memory only, the destination the transformed source, every other byte as it was (R50, R58). -/
theorem toycbcrArray_spec {o : Operands} {s : State}
    (hd : o.src + arrayLen o.height o.width ≤ o.dst ∨ o.dst + arrayLen o.height o.width ≤ o.src) :
    OnlyMem s (toycbcrArray o s) ∧ ∀ a, memRead (toycbcrArray o s) a =
      pixelsDone o.dst o.width (transformSamples s.cfg.roundTie (samplesAt s o.src o.width))
        (o.height * o.width) s a := by
  refine forPixels_writes _ ?_
  intro r c t hr hc hframe hout
  have hsrc : ∀ k, k < 3 → memRead t (pixelAddr o.src o.width r c k) = samplesAt s o.src o.width r c k :=
    fun k hk => hout _ (by have := source_outside hr hc hk hd; rw [arrayLen_eq] at this; exact this)
  have hcfg : t.cfg = s.cfg := by rw [hframe]
  simp only [toycbcrPixel, writePixel, hsrc 0 (by omega), hsrc 1 (by omega), hsrc 2 (by omega), hcfg,
    transformSamples]
  rfl

/-- `SUBSAMPLE`'s loops: memory only, the destination the selected samples, every other byte as it was (R59, R74). -/
theorem subsampleArray_spec {o : Operands} {da db : Nat} {s : State} (hh : 0 < o.height) (hw : 0 < o.width)
    (hda : 0 < da)
    (hd : o.src + arrayLen o.height o.width ≤ o.dst ∨
      o.dst + arrayLen (evenUp o.height) (evenUp o.width) ≤ o.src) :
    OnlyMem s (subsampleArray o da db s) ∧ ∀ a, memRead (subsampleArray o da db s) a =
      pixelsDone o.dst (evenUp o.width) (selectSamples o.height o.width da db (samplesAt s o.src o.width))
        (evenUp o.height * evenUp o.width) s a := by
  refine forPixels_writes _ ?_
  intro r c t hr hc hframe hout
  obtain ⟨hrow, hdiv⟩ := rowSel_lt (db := db) hda hh hr
  have hcol := colSel_lt (c := c) hw hdiv
  have hsrc : ∀ r' c' k u, r' < o.height → c' < o.width → k < 3 →
      (∀ a, (a < o.dst ∨ o.dst + arrayLen (evenUp o.height) (evenUp o.width) ≤ a) → memRead u a = memRead t a) →
      memRead u (pixelAddr o.src o.width r' c' k) = samplesAt s o.src o.width r' c' k := by
    intro r' c' k u hr' hc' hk hu
    have hx := source_outside hr' hc' hk hd
    rw [hu _ hx]
    rw [arrayLen_eq] at hx
    exact hout _ hx
  have hdst : ∀ k, k < 3 → ∀ a, (a < o.dst ∨ o.dst + arrayLen (evenUp o.height) (evenUp o.width) ≤ a) →
      a ≠ pixelAddr o.dst (evenUp o.width) r c k := by
    intro k hk a ha he
    have h1 := pixelAddr_lt (base := o.dst) hr hc hk
    have h2 : o.dst ≤ pixelAddr o.dst (evenUp o.width) r c k := by unfold pixelAddr; omega
    unfold arrayLen at ha
    omega
  have e0 := hsrc (min r (o.height - 1)) (min c (o.width - 1)) 0 t (by omega) (by omega) (by omega)
    (fun _ _ => rfl)
  simp only [subsamplePixel, writePixel, selectSamples, e0]
  rw [hsrc _ _ 1 _ hrow hcol (by omega) ?_, hsrc _ _ 2 _ hrow hcol (by omega) ?_]
  · rfl
  · intro a ha
    rw [memRead_memWrite, if_neg (hdst 1 (by omega) a ha), memRead_memWrite, if_neg (hdst 0 (by omega) a ha)]
  · intro a ha
    rw [memRead_memWrite, if_neg (hdst 0 (by omega) a ha)]

end Sys2Proof.Machine
end

