-- ==== Sys2Proof/Laws/Commands.lean ====
section
/-! SUPPORT. What a command, an event and a step can do, each said once (R50, R59, R80 to R83, R96). -/

namespace Sys2Proof.Machine

open Sys2Proof

/-- `TOYCBCR` on legal arrays completes. -/
theorem execToycbcr_done {s : State}
    (h : ArraysLegal s (arrayLen s.height.toNat s.width.toNat) (arrayLen s.height.toNat s.width.toNat)) :
    exec .toycbcr s = .next (cmdDone 0 s.height.toNat s.width.toNat (toycbcrArray (sampleOperands s) s)) := by
  have hc : toycbcrCheck s.cfg (sampleOperands s) = none := (arrayCheck_none_iff s).mpr h
  simp only [exec, execToycbcr, hc]
  rfl

/-- `TOYCBCR` fails with one of the codes 4, 5, 6, or its arrays are legal and it completes. -/
theorem execToycbcr_cases (s : State) :
    (∃ e, (e = .dim ∨ e = .addr ∨ e = .overlap) ∧ exec .toycbcr s = .next (cmdError e s)) ∨
    (ArraysLegal s (arrayLen s.height.toNat s.width.toNat) (arrayLen s.height.toNat s.width.toNat) ∧
      exec .toycbcr s =
        .next (cmdDone 0 s.height.toNat s.width.toNat (toycbcrArray (sampleOperands s) s))) := by
  cases hc : toycbcrCheck s.cfg (sampleOperands s) with
  | none =>
    have hl := (arrayCheck_none_iff s).mp hc
    exact Or.inr ⟨hl, execToycbcr_done hl⟩
  | some e => exact Or.inl ⟨e, arrayCheck_some hc, by simp only [exec, execToycbcr, hc]⟩

/-- `SUBSAMPLE` with a legal pair on legal arrays completes. -/
theorem execSubsample_done {a b : Int} {s : State} (hc : samplingCheck a b = none)
    (h : ArraysLegal s (arrayLen s.height.toNat s.width.toNat)
      (arrayLen (evenUp s.height.toNat) (evenUp s.width.toNat))) :
    exec (.subsample a b) s = .next (cmdDone
      (sampleCount s.height.toNat s.width.toNat (legalFactor a) (legalFactor b))
      (evenUp s.height.toNat) (evenUp s.width.toNat)
      (subsampleArray (sampleOperands s) (legalFactor a) (legalFactor b) s)) := by
  have hn : subsampleCheck s.cfg a b (sampleOperands s) = none := by
    simp only [subsampleCheck, hc]
    exact (arrayCheck_none_iff s).mpr h
  simp only [exec, execSubsample, hn]
  rfl

/-- `SUBSAMPLE` fails with one of the codes 1 to 6, or its pair and arrays are legal and it completes. -/
theorem execSubsample_cases (a b : Int) (s : State) :
    (∃ e, e ≠ .opcode ∧ exec (.subsample a b) s = .next (cmdError e s)) ∨
    (samplingCheck a b = none ∧
      ArraysLegal s (arrayLen s.height.toNat s.width.toNat)
        (arrayLen (evenUp s.height.toNat) (evenUp s.width.toNat)) ∧
      exec (.subsample a b) s = .next (cmdDone
        (sampleCount s.height.toNat s.width.toNat (legalFactor a) (legalFactor b))
        (evenUp s.height.toNat) (evenUp s.width.toNat)
        (subsampleArray (sampleOperands s) (legalFactor a) (legalFactor b) s))) := by
  cases hs : samplingCheck a b with
  | some e =>
    refine Or.inl ⟨e, ?_, by simp only [exec, execSubsample, subsampleCheck, hs]⟩
    rcases samplingCheck_some hs with rfl | rfl | rfl <;> decide
  | none =>
    cases hc : subsampleCheck s.cfg a b (sampleOperands s) with
    | some e =>
      refine Or.inl ⟨e, ?_, by simp only [exec, execSubsample, hc]⟩
      simp only [subsampleCheck, hs] at hc
      rcases arrayCheck_some hc with rfl | rfl | rfl <;> decide
    | none =>
      simp only [subsampleCheck, hs] at hc
      have hl := (arrayCheck_none_iff s).mp hc
      exact Or.inr ⟨rfl, hl, execSubsample_done hs hl⟩

/-- A state that differs in memory only has everything else the same. -/
theorem onlyMem_same {s t : State} (h : OnlyMem s t) : SameApartFromResults s t := by
  unfold OnlyMem at h
  rw [h]
  exact ⟨rfl, rfl, rfl, rfl, rfl, rfl, rfl, rfl⟩

/-- Everything `TOYCBCR` can do: a command error its checks name, or the transformed array (R50). -/
theorem execToycbcr_spec {s t : State} (h : exec .toycbcr s = .next t) :
    (∃ e, t = cmdError e s ∧ toycbcrCheck s.cfg (sampleOperands s) = some e) ∨
    (ArraysLegal s (arrayLen s.height.toNat s.width.toNat) (arrayLen s.height.toNat s.width.toNat) ∧
      t.status = 0 ∧ t.bytes = 0 ∧ t.outH = s.height ∧ t.outW = s.width ∧
      (∀ x, memRead t x = pixelsDone s.dst.toNat s.width.toNat
        (transformSamples s.cfg.roundTie (samplesAt s s.src.toNat s.width.toNat))
        (s.height.toNat * s.width.toNat) s x) ∧ SameApartFromResults s t) := by
  cases hc : toycbcrCheck s.cfg (sampleOperands s) with
  | some e =>
    simp only [exec, execToycbcr, hc] at h
    injection h with h
    exact Or.inl ⟨e, h.symm, rfl⟩
  | none =>
    have hl := (arrayCheck_none_iff s).mp hc
    rw [execToycbcr_done hl] at h
    injection h with h
    subst h
    have spec := toycbcrArray_spec (o := sampleOperands s) (s := s) hl.2.2.2.2
    exact Or.inr ⟨hl, rfl, rfl, by simp, by simp, fun x => spec.2 x, (onlyMem_same spec.1 :)⟩

/-- Everything `SUBSAMPLE a, b` can do: a command error its checks name, or the reconstructed array (R59). -/
theorem execSubsample_spec {a b : Int} {s t : State} (h : exec (.subsample a b) s = .next t) :
    (∃ e, t = cmdError e s ∧ subsampleCheck s.cfg a b (sampleOperands s) = some e) ∨
    (samplingCheck a b = none ∧
      ArraysLegal s (arrayLen s.height.toNat s.width.toNat)
        (arrayLen (evenUp s.height.toNat) (evenUp s.width.toNat)) ∧
      t.status = 0 ∧
      t.bytes.toNat = sampleCount s.height.toNat s.width.toNat (legalFactor a) (legalFactor b) ∧
      t.outH.toNat = evenUp s.height.toNat ∧ t.outW.toNat = evenUp s.width.toNat ∧
      (∀ x, memRead t x = pixelsDone s.dst.toNat (evenUp s.width.toNat)
        (selectSamples s.height.toNat s.width.toNat (legalFactor a) (legalFactor b)
          (samplesAt s s.src.toNat s.width.toNat))
        (evenUp s.height.toNat * evenUp s.width.toNat) s x) ∧ SameApartFromResults s t) := by
  cases hc : subsampleCheck s.cfg a b (sampleOperands s) with
  | some e =>
    simp only [exec, execSubsample, hc] at h
    injection h with h
    exact Or.inl ⟨e, h.symm, rfl⟩
  | none =>
    cases hs : samplingCheck a b with
    | some e => simp [subsampleCheck, hs] at hc
    | none =>
      simp only [subsampleCheck, hs] at hc
      have hl : ArraysLegal s (arrayLen s.height.toNat s.width.toNat)
          (arrayLen (evenUp s.height.toNat) (evenUp s.width.toNat)) := (arrayCheck_none_iff s).mp hc
      rw [execSubsample_done hs hl] at h
      injection h with h
      subst h
      obtain ⟨hH, hW, hsrc, hdst, ho⟩ := hl
      have hf := legalFactor_of_legal (samplingCheck_legal hs)
      have hda : 0 < legalFactor a := by omega
      have spec := subsampleArray_spec (o := sampleOperands s) (db := legalFactor b) (s := s) hH hW hda ho
      have l1 := samples_lt_of_inside (s := s) (H := s.height.toNat) (W := s.width.toNat)
        (by unfold arrayLen at hsrc; omega)
      have l2 := samples_lt_of_inside (s := s) (H := evenUp s.height.toNat) (W := evenUp s.width.toNat)
        (by unfold arrayLen at hdst; omega)
      have hcnt := sampleCount_le (H := s.height.toNat) (W := s.width.toNat) (db := legalFactor b) hda
      have p1 : 0 < evenUp s.height.toNat := by unfold evenUp; omega
      have p2 : 0 < evenUp s.width.toNat := by unfold evenUp; omega
      have q1 : evenUp s.height.toNat ≤ evenUp s.height.toNat * evenUp s.width.toNat :=
        Nat.le_mul_of_pos_right _ p2
      have q2 : evenUp s.width.toNat ≤ evenUp s.height.toNat * evenUp s.width.toNat :=
        Nat.le_mul_of_pos_left _ p1
      exact Or.inr ⟨rfl, ⟨hH, hW, hsrc, hdst, ho⟩, rfl, ofNat_toNat_of_lt (by omega),
        ofNat_toNat_of_lt (by omega), ofNat_toNat_of_lt (by omega), fun x => spec.2 x,
        (onlyMem_same spec.1 :)⟩

/-- Every command ends in a next state: failed with some code, or completed. -/
theorem exec_cases (i : Instr) (s : State) :
    (∃ e, exec i s = .next (cmdError e s)) ∨ (∃ n h w u, exec i s = .next (cmdDone n h w u)) := by
  cases i with
  | toycbcr =>
    rcases execToycbcr_cases s with ⟨e, -, he⟩ | ⟨-, he⟩
    · exact Or.inl ⟨e, he⟩
    · exact Or.inr ⟨_, _, _, _, he⟩
  | subsample a b =>
    rcases execSubsample_cases a b s with ⟨e, -, he⟩ | ⟨-, -, he⟩
    · exact Or.inl ⟨e, he⟩
    · exact Or.inr ⟨_, _, _, _, he⟩

/-- A step performs the first event still to come. -/
theorem step_cons {s : State} {e : Event} {rest : List Event} (h : s.pending = e :: rest) :
    step s = perform e { s with pending := rest } := by
  simp only [step, nextEvent, h]

/-- With no event to come a step changes nothing. -/
theorem step_nil {s : State} (h : s.pending = []) : step s = .next s := by
  simp only [step, nextEvent, h]

/-- What a step that answers a next state has done, by the kind of its event. -/
theorem step_cases {s t : State} (h : step s = .next t) :
    (s.pending = [] ∧ t = s) ∨
    (∃ w rest, s.pending = .wr 4 w :: rest ∧ writeCmd w { s with pending := rest } = .next t) ∨
    (∃ i v rest, s.pending = .wr i v :: rest ∧ i ≠ 4 ∧ t = regWrite i v { s with pending := rest }) ∨
    (∃ i rest, s.pending = .rd i :: rest ∧
      t = { s with pending := rest, answers := s.answers ++ [.word (regRead s i)] }) ∨
    (∃ addr v rest, s.pending = .mwr addr v :: rest ∧ addr.toNat < s.cfg.memSize ∧
      t = memWrite addr.toNat v { s with pending := rest }) ∨
    (∃ addr rest, s.pending = .mrd addr :: rest ∧ addr.toNat < s.cfg.memSize ∧
      t = { s with pending := rest, answers := s.answers ++ [.byte (memRead s addr.toNat)] }) ∨
    (∃ rest, s.pending = .reset :: rest ∧ t = hardwareReset { s with pending := rest }) ∨
    (∃ rest, s.pending = .powerOn :: rest ∧ t = powerOnReset { s with pending := rest }) := by
  cases hp : s.pending with
  | nil =>
    rw [step_nil hp] at h
    injection h with h
    exact Or.inl ⟨rfl, h.symm⟩
  | cons e rest =>
    rw [step_cons hp] at h
    cases e with
    | wr i v =>
      by_cases hi : i = 4
      · subst hi
        exact Or.inr (Or.inl ⟨v, rest, rfl, by simpa [perform, hostWrite] using h⟩)
      · simp only [perform, hostWrite, if_neg hi] at h
        injection h with h
        exact Or.inr (Or.inr (Or.inl ⟨i, v, rest, rfl, hi, h.symm⟩))
    | rd i =>
      injection h with h
      refine Or.inr (Or.inr (Or.inr (Or.inl ⟨i, rest, rfl, ?_⟩)))
      rw [← h]
      rcases i with _ | _ | _ | _ | _ | _ | _ | _ | _ | i <;> rfl
    | mwr addr v =>
      by_cases ha : addr.toNat < s.cfg.memSize
      · simp only [perform, hostMemWrite, if_pos ha] at h
        injection h with h
        exact Or.inr (Or.inr (Or.inr (Or.inr (Or.inl ⟨addr, v, rest, rfl, ha, h.symm⟩))))
      · simp only [perform, hostMemWrite, if_neg ha] at h
        cases h
    | mrd addr =>
      by_cases ha : addr.toNat < s.cfg.memSize
      · simp only [perform, hostMemRead, if_pos ha] at h
        injection h with h
        exact Or.inr (Or.inr (Or.inr (Or.inr (Or.inr (Or.inl ⟨addr, rest, rfl, ha, h.symm⟩)))))
      · simp only [perform, hostMemRead, if_neg ha] at h
        cases h
    | reset =>
      injection h with h
      exact Or.inr (Or.inr (Or.inr (Or.inr (Or.inr (Or.inr (Or.inl ⟨rest, rfl, h.symm⟩))))))
    | powerOn =>
      injection h with h
      exact Or.inr (Or.inr (Or.inr (Or.inr (Or.inr (Or.inr (Or.inr ⟨rest, rfl, h.symm⟩))))))

end Sys2Proof.Machine
end

