-- ==== Sys2Proof/Laws/PerInstr.lean ====
section
/-! SUPPORT. Facts about every command as syntax, one lemma a constructor. -/

namespace Sys2Proof.Laws

open Sys2Proof

/-- The operation code of a command (R41). -/
def opcodeOf : Instr → Nat
  | .toycbcr => 0x01
  | .subsample _ _ => 0x02

/-- A word packed from fields, as the sum of R39. -/
theorem packWord_toNat (rsv b a opc : Byte) :
    (packWord rsv b a opc).toNat = opc.toNat + 256 * a.toNat + 65536 * b.toNat + 16777216 * rsv.toNat := by
  have h1 := opc.isLt
  have h2 := a.isLt
  have h3 := b.isLt
  simp only [packWord, BitVec.toNat_append]
  rw [← Nat.shiftLeft_add_eq_or_of_lt (by omega), ← Nat.shiftLeft_add_eq_or_of_lt (by omega),
    ← Nat.shiftLeft_add_eq_or_of_lt (by omega)]
  simp only [Nat.shiftLeft_eq]
  omega

/-- The fixed bits of the opcode table's row stand in the encoding: `OPC` in bits [7:0], zero in bits [31:24]
(R39, R41 to R43), whatever the immediates. -/
def FixedBits.Statement (i : Instr) : Prop :=
  (encode i).toNat % 256 = opcodeOf i ∧ (encode i).toNat / 2 ^ 24 = 0

theorem FixedBits.toycbcr : FixedBits.Statement .toycbcr := by
  refine ⟨?_, ?_⟩ <;> decide

theorem FixedBits.subsample (a b : Int) : FixedBits.Statement (.subsample a b) := by
  have h1 := (immField a).isLt
  have h2 := (immField b).isLt
  have h0 : ((0 : Byte)).toNat = 0 := rfl
  have h3 : ((0x02 : Byte)).toNat = 2 := rfl
  simp only [FixedBits.Statement, encode, packWord_toNat, opcodeOf]
  omega

end Sys2Proof.Laws
end

