-- ==== Sys2Proof/Laws/Decode.lean ====
section
/-! SUPPORT. The fields of a command word, their extension, and the decoder, each in the arithmetic of the word's
value. -/

namespace Sys2Proof

/-- The field `OPC` as an arithmetic expression (R39). -/
theorem opcField_toNat (w : Word) : (opcField w).toNat = w.toNat % 256 := by
  simp [opcField]

/-- The field `A` (R39). -/
theorem aField_toNat (w : Word) : (aField w).toNat = w.toNat / 256 % 256 := by
  simp [aField, Nat.shiftRight_eq_div_pow]

/-- The field `B` (R39). -/
theorem bField_toNat (w : Word) : (bField w).toNat = w.toNat / 65536 % 256 := by
  simp [bField, Nat.shiftRight_eq_div_pow]

/-- The field `RSV` (R39). -/
theorem rsvField_toNat (w : Word) : (rsvField w).toNat = w.toNat / 16777216 := by
  have := w.isLt
  simp [rsvField, Nat.shiftRight_eq_div_pow]; omega

/-- A byte is known by its value. -/
theorem byte_eq_iff (x : Byte) (n : Nat) (h : n < 256) : x = BitVec.ofNat 8 n ↔ x.toNat = n := by
  constructor
  · rintro rfl; simp; omega
  · intro e; apply BitVec.eq_of_toNat_eq; simp [e]; omega


/-- The decoder's tests, in the arithmetic of the word's value (R44). -/
theorem decode_arith (w : Word) : decode w =
    if w.toNat / 16777216 ≠ 0 then .error .rsvNonzero
    else if w.toNat % 256 = 1 ∧ w.toNat / 256 % 256 = 0 ∧ w.toNat / 65536 % 256 = 0 then .ok .toycbcr
    else if w.toNat % 256 = 1 then .error .toycbcrFieldsNonzero
    else if w.toNat % 256 = 2 then .ok (.subsample (sext8 (aField w)) (sext8 (bField w)))
    else .error .noSuchOpcode := by
  unfold decode
  have h1 : rsvField w ≠ 0 ↔ w.toNat / 16777216 ≠ 0 := by
    rw [← rsvField_toNat]; exact (byte_eq_iff _ 0 (by omega)).not
  have h2 : opcField w = 0x01 ↔ w.toNat % 256 = 1 := by rw [← opcField_toNat]; exact byte_eq_iff _ 1 (by omega)
  have h3 : opcField w = 0x02 ↔ w.toNat % 256 = 2 := by rw [← opcField_toNat]; exact byte_eq_iff _ 2 (by omega)
  have h4 : aField w = 0 ↔ w.toNat / 256 % 256 = 0 := by rw [← aField_toNat]; exact byte_eq_iff _ 0 (by omega)
  have h5 : bField w = 0 ↔ w.toNat / 65536 % 256 = 0 := by rw [← bField_toNat]; exact byte_eq_iff _ 0 (by omega)
  simp only [h1, h2, h3, h4, h5]


/-- `sext_8` (R6): the one integer of −128 to 127 with the field as its residue mod 256. -/
theorem sext8_spec (f : Byte) : -128 ≤ sext8 f ∧ sext8 f ≤ 127 ∧ sext8 f % 256 = (f.toNat : Int) := by
  have := f.isLt
  unfold sext8; split <;> omega

/-- The field of an immediate is its residue mod 256 (R43). -/
theorem immField_toNat (v : Int) : ((immField v).toNat : Int) = v % 256 := by
  simp [immField]; omega

end Sys2Proof
end

