-- ==== Sys2Proof/Tests/Slice0.lean ====
section
/-! SUPPORT. Own tests: what WellFormed refuses, words written out from the encoding of R39, a few vectors of spec/95, and
for every statement with hypotheses a witness that meets them together. -/

namespace Sys2Proof.Tests

open Sys2Proof Sys2Proof.Machine

/-! ### Helpers -/

/-- A state with `MEM_SIZE` = `lastAddr` + 1, the given operand registers, bytes stored from address 0 on, and events
to come. -/
def tState (lastAddr src dst height width : Nat) (bytes : List Nat) (es : List Event) : State :=
  { State.reset with
    src := BitVec.ofNat 32 src
    dst := BitVec.ofNat 32 dst
    height := BitVec.ofNat 32 height
    width := BitVec.ofNat 32 width
    mem := bytes.mapIdx fun i b => (i, BitVec.ofNat 8 b)
    cfg := ⟨BitVec.ofNat 32 lastAddr, .halfUp⟩
    pending := es }

/-- The `n` bytes from `a` on after an outcome, if it is a next state. -/
def bytesAfter (o : Host.Outcome State Fault Refusal) (a n : Nat) : Option (List Nat) :=
  match o with
  | .next t => some ((List.range n).map fun j => (memRead t (a + j)).toNat)
  | _ => none

/-- `STATUS`, `BYTES`, `OUT_H`, `OUT_W` after an outcome, if it is a next state. -/
def resultsAfter (o : Host.Outcome State Fault Refusal) : Option (Nat × Nat × Nat × Nat) :=
  match o with
  | .next t => some (t.status.toNat, t.bytes.toNat, t.outH.toNat, t.outW.toNat)
  | _ => none

/-! ### WellFormed refuses what has no encoding (R40, R47) -/

theorem test_wellFormed_refuses_a_below : (Instr.subsample (-129) 0).wellFormed = false := by decide
theorem test_wellFormed_refuses_a_above : (Instr.subsample 128 0).wellFormed = false := by decide
theorem test_wellFormed_refuses_b_below : (Instr.subsample 4 (-129)).wellFormed = false := by decide
theorem test_wellFormed_refuses_b_above : (Instr.subsample 4 128).wellFormed = false := by decide

/-! ### Words written out field by field, RSV B A OPC (R39, R42, R43) -/

theorem test_decode_toycbcr :
    decode (0b00000000_00000000_00000000_00000001#32) = .ok .toycbcr := by decide
/-- a = 4 is `00000100`, b = 2 is `00000010`. -/
theorem test_decode_subsample_4_2 :
    decode (0b00000000_00000010_00000100_00000010#32) = .ok (.subsample 4 2) := by decide
/-- a = −128 is `10000000`, b = −1 is `11111111`. -/
theorem test_decode_subsample_negative :
    decode (0b00000000_11111111_10000000_00000010#32) = .ok (.subsample (-128) (-1)) := by decide
theorem test_decode_reserved_rsv :
    decode (0b10000000_00000000_00000000_00000010#32) = .error .rsvNonzero := by decide
theorem test_decode_reserved_toycbcr_b :
    decode (0b00000000_00000001_00000000_00000001#32) = .error .toycbcrFieldsNonzero := by decide
theorem test_decode_reserved_opcode :
    decode (0b00000000_00000010_00000010_00000011#32) = .error .noSuchOpcode := by decide
theorem test_encode_subsample : encode (.subsample (-1) 0) = 0x0000FF02#32 := by decide
theorem test_decodeTableWord : decodeTableWord 32 0x00000102 = some (.subsample 1 0) := by decide

/-! ### Commands (spec/95 sections 2.3, 2.5) -/

/-- V-T2: three pixels, one of them at an exact half. -/
theorem test_toycbcr_vector : bytesAfter
    (exec .toycbcr (tState 63 0 32 1 3 [0x00, 0x00, 0x00, 0x01, 0x00, 0x00, 0x00, 0x0C, 0x18] [])) 32 9 =
    some [0x00, 0x80, 0x80, 0x00, 0x80, 0x81, 0x0B, 0x88, 0x79] := by decide +kernel

/-- V-T5: regions that share one byte. -/
theorem test_toycbcr_overlap :
    resultsAfter (exec .toycbcr (tState 63 0 2 1 1 [] [])) = some (6, 0, 0, 0) := by decide

/-- V-S21, one row of odd width under 4:2:2: padded column and row. -/
theorem test_subsample_odd : bytesAfter (exec (.subsample 2 2) (tState 255 0 64 1 5
      [0x00, 0x40, 0x80, 0x01, 0x41, 0x81, 0x02, 0x42, 0x82, 0x03, 0x43, 0x83, 0x04, 0x44, 0x84] [])) 64 36 =
    some [0x00, 0x40, 0x80, 0x01, 0x40, 0x80, 0x02, 0x42, 0x82, 0x03, 0x42, 0x82, 0x04, 0x44, 0x84, 0x04, 0x44, 0x84,
      0x00, 0x40, 0x80, 0x01, 0x40, 0x80, 0x02, 0x42, 0x82, 0x03, 0x42, 0x82, 0x04, 0x44, 0x84, 0x04, 0x44, 0x84] := by
  decide +kernel

/-- V-S23 with `ss420`: the result registers. -/
theorem test_subsample_results : resultsAfter (exec (.subsample 2 0) (tState 255 0 64 2 2
    [0x4C, 0x54, 0xFF, 0x96, 0x29, 0x15, 0x25, 0xFF, 0x66, 0xFF, 0x7D, 0x7B] [])) = some (0, 6, 2, 2) := by
  decide +kernel

/-- The first step after power-on runs the word that is fetched, and fails with `E_DIM` (spec/95 section 2.10). -/
theorem test_first_step_after_reset :
    resultsAfter (step (State.reset.withFetchWord 32 0x00000001)) = some (4, 0, 0, 0) := by decide

/-- A line of spec/95 section 2.9. -/
theorem test_script_line : scriptLine "wr SRC, 0xFFFFFFFF  ; every value".toList = some [.wr 0 0xFFFFFFFF#32] := by
  decide

/-! ### Witnesses: the hypotheses of each statement, met together -/

theorem witness_DecodeOfEncodeIsTheCommand : (Instr.subsample (-128) 127).wellFormed = true := by decide

theorem witness_EncodeOfDecodeIsTheWord : decode 0x007F8002#32 = .ok (.subsample (-128) 127) := by decide

theorem witness_AssemblerWordOfSubsample : assemble (.subsample (-128) 127) = some 0x007F8002#32 := by decide

theorem witness_PseudoInstructionWords : pseudoNamed "ss410".toList = some .ss410 := by decide

theorem witness_StepRunsTheDecodedCommand :
    (tState 63 0 32 1 1 [] [.wr 4 0x00040402#32]).pending = [.wr 4 0x00040402#32] ∧
    decode 0x00040402#32 = .ok (.subsample 4 4) ∧ (Instr.subsample 4 4).wellFormed = true := by decide

theorem witness_FetchWordRunsTheTableInstruction :
    decodeTableWord 32 0x00000202 = some (.subsample 2 0) := by decide

theorem witness_StepWithoutEventsIsIdle : State.reset.pending = [] := rfl

theorem witness_StepKeepsTheParameters :
    ∃ t, step (tState 63 0 32 1 1 [] [.wr 4 1#32]) = .next t := ⟨_, rfl⟩

theorem witness_StepKeepsTheInvariant :
    (tState 63 0 32 1 1 [1, 2, 3] [.mwr 63#32 9#8]).Inv ∧
    ∃ t, step (tState 63 0 32 1 1 [1, 2, 3] [.mwr 63#32 9#8]) = .next t :=
  ⟨⟨by decide, by decide, by decide, by decide, by decide, by decide, by decide⟩, ⟨_, rfl⟩⟩

theorem witness_StepChangesOnlyWhatItsEventNames :
    (∃ t, step (tState 63 0 0 0 0 [] [.wr 3 640#32]) = .next t ∧
      ¬(t.src = 0 ∧ t.dst = 0 ∧ t.height = 0 ∧ t.width = 0)) ∧
    (∃ t, step (tState 63 0 0 0 0 [] [.wr 4 0#32]) = .next t ∧ t.status ≠ 0) ∧
    (∃ t, step (tState 63 0 0 0 0 [1] [.mwr 0#32 2#8]) = .next t ∧
      memRead t 0 ≠ memRead (tState 63 0 0 0 0 [1] [.mwr 0#32 2#8]) 0) :=
  ⟨⟨_, rfl, by decide⟩, ⟨_, rfl, by decide⟩, ⟨_, rfl, by decide⟩⟩

/-- Each clause: indices 0 to 3, `CMD` with a command and with a reserved word, and from 5 on. -/
theorem witness_HostWriteByRegister (i : Nat) :
    (tState 63 0 0 0 0 [] [.wr i 7#32]).pending = [.wr i 7#32] ∧
    (tState 63 0 0 0 0 [] [.wr 4 1#32]).pending = [.wr 4 1#32] ∧ decode 1#32 = .ok .toycbcr ∧
    (tState 63 0 0 0 0 [] [.wr 4 0#32]).pending = [.wr 4 0#32] ∧ decode 0#32 = .error .noSuchOpcode ∧
    (tState 63 0 0 0 0 [] [.wr 5 7#32]).pending = [.wr 5 7#32] ∧ 5 ≤ 5 :=
  ⟨rfl, rfl, by decide, rfl, by decide, rfl, by decide⟩

/-- Every index, 4, 8 and 9 among them. -/
theorem witness_HostReadByRegister (i : Nat) :
    (tState 63 0 0 0 0 [] [.rd i]).pending = [.rd i] := rfl

/-- The last byte of `MEM`, and the first address beyond it. -/
theorem witness_HostMemoryWriteStoresTheByte :
    ((tState 63 0 0 0 0 [] [.mwr 63#32 1#8]).pending = [.mwr 63#32 1#8] ∧
      (63#32).toNat < (tState 63 0 0 0 0 [] []).cfg.memSize) ∧
    ((tState 63 0 0 0 0 [] [.mwr 64#32 1#8]).pending = [.mwr 64#32 1#8] ∧
      (tState 63 0 0 0 0 [] []).cfg.memSize ≤ (64#32).toNat) := by decide

theorem witness_HostMemoryReadAnswersTheByte :
    ((tState 63 0 0 0 0 [] [.mrd 63#32]).pending = [.mrd 63#32] ∧
      (63#32).toNat < (tState 63 0 0 0 0 [] []).cfg.memSize) ∧
    ((tState 63 0 0 0 0 [] [.mrd 64#32]).pending = [.mrd 64#32] ∧
      (tState 63 0 0 0 0 [] []).cfg.memSize ≤ (64#32).toNat) := by decide

theorem witness_ResetClearsRegistersAndKeepsMemory :
    (tState 63 1 2 3 4 [5] [.reset]).pending = [.reset] := rfl

theorem witness_PowerOnLeavesFreeBytes : (tState 63 1 2 3 4 [5] [.powerOn]).pending = [.powerOn] := rfl

/-- A reserved word, `TOYCBCR`, a legal pair and a rejected one, all with the operand registers at 0. -/
theorem witness_NoCommandSucceedsWithResetOperands (w : Word) :
    ((tState 63 0 0 0 0 [] [.wr 4 w]).pending = [.wr 4 w] ∧ (tState 63 0 0 0 0 [] [.wr 4 w]).src = 0 ∧
      (tState 63 0 0 0 0 [] [.wr 4 w]).dst = 0 ∧ (tState 63 0 0 0 0 [] [.wr 4 w]).height = 0 ∧
      (tState 63 0 0 0 0 [] [.wr 4 w]).width = 0) ∧
    decode 0#32 = .error .noSuchOpcode ∧ decode 1#32 = .ok .toycbcr ∧
    decode 0x00000202#32 = .ok (.subsample 2 0) ∧ decode 0x00030402#32 = .ok (.subsample 4 3) :=
  ⟨⟨rfl, rfl, rfl, rfl, rfl⟩, by decide, by decide, by decide, by decide⟩

theorem witness_RaiseCmdErrorEffects :
    CmdErr.opcode = .specMax ∧ 7 = 1 ∨ CmdErr.opcode = .specNeg ∧ 7 = 2 ∨ CmdErr.opcode = .specThree ∧ 7 = 3 ∨
    CmdErr.opcode = .dim ∧ 7 = 4 ∨ CmdErr.opcode = .addr ∧ 7 = 5 ∨ CmdErr.opcode = .overlap ∧ 7 = 6 ∨
    CmdErr.opcode = .opcode ∧ 7 = 7 := by decide

/-- One word for each condition of R44. -/
theorem witness_ReservedWordFailsWithOpcodeError :
    (∀ w : Word, (tState 63 0 0 0 0 [] [.wr 4 w]).pending = [.wr 4 w]) ∧
    ((0x00000003#32).toNat % 256 ≠ 1 ∧ (0x00000003#32).toNat % 256 ≠ 2) ∧
    (0x01000001#32).toNat / 2 ^ 24 ≠ 0 ∧
    ((0x00000101#32).toNat % 256 = 1 ∧ (0x00000101#32).toNat / 2 ^ 8 % 256 ≠ 0) ∧
    ((0x00010001#32).toNat % 256 = 1 ∧ (0x00010001#32).toNat / 2 ^ 16 % 256 ≠ 0) :=
  ⟨fun _ => rfl, by decide, by decide, by decide, by decide⟩

/-- The boundary pairs (5, 4), (4, 5); (0, 4), (4, −1); (3, 0), (4, 3). -/
theorem witness_SubsampleSamplingErrors :
    (4 < (5 : Int) ∨ 4 < (4 : Int)) ∧ (4 < (4 : Int) ∨ 4 < (5 : Int)) ∧
    (¬(4 < (0 : Int) ∨ 4 < (4 : Int)) ∧ ((0 : Int) ≤ 0 ∨ (4 : Int) < 0)) ∧
    (¬(4 < (4 : Int) ∨ 4 < (-1 : Int)) ∧ ((4 : Int) ≤ 0 ∨ (-1 : Int) < 0)) ∧
    (¬(4 < (3 : Int) ∨ 4 < (0 : Int)) ∧ ¬((3 : Int) ≤ 0 ∨ (0 : Int) < 0) ∧ ((3 : Int) = 3 ∨ (0 : Int) = 3)) ∧
    (¬(4 < (4 : Int) ∨ 4 < (3 : Int)) ∧ ¬((4 : Int) ≤ 0 ∨ (3 : Int) < 0) ∧ ((4 : Int) = 3 ∨ (3 : Int) = 3)) := by
  decide

/-- For each command and each clause, `MEM_SIZE` = 64 and a 1 × 1 source: H = 0; a destination one byte too high
(62 + 3, 53 + 12); and one that begins on the source's last byte (2), or ends on its first (V-X11). -/
theorem witness_ArrayErrorsOfBothCommands :
    ((0 : Nat) = 0 ∨ (5 : Nat) = 0) ∧
    (¬((1 : Nat) = 0 ∨ (1 : Nat) = 0) ∧ ((tState 63 0 62 1 1 [] []).cfg.memSize < 0 + 3 * 1 * 1 ∨
      (tState 63 0 62 1 1 [] []).cfg.memSize < 62 + 3 * 1 * 1)) ∧
    (¬((1 : Nat) = 0 ∨ (1 : Nat) = 0) ∧ ((tState 63 0 53 1 1 [] []).cfg.memSize < 0 + 3 * 1 * 1 ∨
      (tState 63 0 53 1 1 [] []).cfg.memSize < 53 + 3 * (1 + 1 % 2) * (1 + 1 % 2))) ∧
    (¬((tState 63 0 2 1 1 [] []).cfg.memSize < 0 + 3 * 1 * 1 ∨
      (tState 63 0 2 1 1 [] []).cfg.memSize < 2 + 3 * 1 * 1) ∧ (0 < 2 + 3 * 1 * 1 ∧ 2 < 0 + 3 * 1 * 1)) ∧
    (¬((tState 63 8 0 1 1 [] []).cfg.memSize < 8 + 3 * 1 * 1 ∨
      (tState 63 8 0 1 1 [] []).cfg.memSize < 0 + 3 * (1 + 1 % 2) * (1 + 1 % 2)) ∧
      (8 < 0 + 3 * (1 + 1 % 2) * (1 + 1 % 2) ∧ 0 < 8 + 3 * 1 * 1)) ∧
    ((tState 63 8 0 1 1 [] []).height.toNat = 1 ∧ (tState 63 8 0 1 1 [] []).width.toNat = 1 ∧
      (tState 63 8 0 1 1 [] []).src.toNat = 8 ∧ (tState 63 8 0 1 1 [] []).dst.toNat = 0) := by decide

theorem witness_ToycbcrNeverReportsSampling : ∃ t, exec .toycbcr (tState 63 0 62 1 1 [] []) = .next t := ⟨_, rfl⟩

/-- A command that fails and one that succeeds. -/
theorem witness_CommandFrame :
    (∃ t, exec .toycbcr (tState 63 0 2 1 1 [] []) = .next t ∧ t.status ≠ 0) ∧
    (∃ t, exec (.subsample 4 4) (tState 63 0 3 1 1 [7, 8, 9] []) = .next t ∧ t.status = 0) :=
  ⟨⟨_, rfl, by decide⟩, ⟨_, rfl, by decide⟩⟩

theorem witness_RepeatedCommandGivesTheSameResult :
    ∃ t, exec (.subsample 4 4) (tState 63 0 52 1 1 [7, 8, 9] []) = .next t := ⟨_, rfl⟩

/-- Adjacent regions, the destination up to the last byte of `MEM`. -/
theorem witness_ToycbcrTransformsEveryPixel :
    (tState 5 0 3 1 1 [1, 2, 3] []).height.toNat = 1 ∧ (tState 5 0 3 1 1 [1, 2, 3] []).width.toNat = 1 ∧
    ArraysLegal (tState 5 0 3 1 1 [1, 2, 3] []) (3 * 1 * 1) (3 * 1 * 1) := by decide

/-- Two images that agree on their first pixel only. -/
theorem witness_ToycbcrPixelsAreIndependent :
    ((tState 63 0 32 1 2 [1, 2, 3, 4, 5, 6] []).src = 0#32 ∧ (tState 63 0 32 1 2 [1, 2, 3, 7, 8, 9] []).src = 0#32 ∧
      (tState 63 0 32 1 2 [1, 2, 3, 4, 5, 6] []).dst = 32#32 ∧ (tState 63 0 32 1 2 [1, 2, 3, 7, 8, 9] []).dst = 32#32 ∧
      (tState 63 0 32 1 2 [1, 2, 3, 4, 5, 6] []).height = 1#32 ∧
      (tState 63 0 32 1 2 [1, 2, 3, 7, 8, 9] []).height = 1#32 ∧
      (tState 63 0 32 1 2 [1, 2, 3, 4, 5, 6] []).width = 2#32 ∧
      (tState 63 0 32 1 2 [1, 2, 3, 7, 8, 9] []).width = 2#32 ∧
      (tState 63 0 32 1 2 [1, 2, 3, 4, 5, 6] []).cfg = (tState 63 0 32 1 2 [1, 2, 3, 7, 8, 9] []).cfg) ∧
    (∀ k, k < 3 → memRead (tState 63 0 32 1 2 [1, 2, 3, 4, 5, 6] []) (pixelAddr 0 2 0 0 k) =
      memRead (tState 63 0 32 1 2 [1, 2, 3, 7, 8, 9] []) (pixelAddr 0 2 0 0 k)) ∧
    (∃ t, exec .toycbcr (tState 63 0 32 1 2 [1, 2, 3, 7, 8, 9] []) = .next t ∧ t.status = 0) ∧
    (∃ t, exec .toycbcr (tState 63 0 32 1 2 [1, 2, 3, 4, 5, 6] []) = .next t) :=
  ⟨by decide, by decide, ⟨_, rfl, by decide⟩, ⟨_, rfl⟩⟩

/-- 5 / 2 is an exact half. -/
theorem witness_RdivRoundsToNearest : (0 : Int) < 2 ∧ (2 * 5 : Int) % (2 * 2) = 2 := by decide

theorem witness_YccRoundsThenClampsTheDocumentFormulas :
    (255 : ℚ) = (((255#8).toNat : Nat) : ℚ) ∧ (0 : ℚ) = (((0#8).toNat : Nat) : ℚ) :=
  ⟨by norm_num, by norm_num⟩

/-- 1 / 2 rounds to 1 under one rule and to 0 under the other. -/
theorem witness_TieRulesDifferOnlyAtEvenHalves :
    (0 : Int) < 2 ∧ clampByte (rdiv .halfUp 1 2) ≠ clampByte (rdiv .halfEven 1 2) := by decide

theorem witness_DivideFactorsOfTheLegalValues :
    ((4 : Int) = 1 ∨ (4 : Int) = 2 ∨ (4 : Int) = 4) ∧
    ¬((3 : Int) = 0 ∨ (3 : Int) = 1 ∨ (3 : Int) = 2 ∨ (3 : Int) = 4) := by decide

/-- A 1 × 1 source and its 2 × 2 destination at the end of `MEM` (V-X8). -/
theorem witness_SubsampleStoresTheReconstruction :
    (tState 63 0 52 1 1 [7, 8, 9] []).height.toNat = 1 ∧ (tState 63 0 52 1 1 [7, 8, 9] []).width.toNat = 1 ∧
    ((2 : Int) = 1 ∨ (2 : Int) = 2 ∨ (2 : Int) = 4) ∧
    ((0 : Int) = 0 ∨ (0 : Int) = 1 ∨ (0 : Int) = 2 ∨ (0 : Int) = 4) ∧
    divideFactor 2 = some 2 ∧ divideFactor 0 = some 0 ∧
    ArraysLegal (tState 63 0 52 1 1 [7, 8, 9] []) (3 * 1 * 1) (3 * evenUp 1 * evenUp 1) := by decide

/-- A padded row and a padded column, with an even and with an odd source row. -/
theorem witness_ClosedFormIsTheReconstruction :
    (0 < 3 ∧ (1 = 1 ∨ 1 = 2 ∨ 1 = 4) ∧ (2 = 0 ∨ 2 = 1 ∨ 2 = 2 ∨ 2 = 4) ∧ 3 < evenUp 3 ∧ 2 < 3) ∧
    (0 < 3 ∧ 3 < evenUp 3 ∧ (rowSel 3 3 1 2).1 % 2 = 0) ∧ (1 < evenUp 3 ∧ (rowSel 1 3 1 2).1 % 2 = 1) := by decide

/-- Two 1 × 2 images that differ only in the chroma of column 1, which 4:1:1 discards. -/
theorem witness_SubsampleIgnoresDiscardedSamples :
    (divideFactor 1 = some 4 ∧ ((1 : Int) = 1 ∨ (1 : Int) = 2 ∨ (1 : Int) = 4) ∧
      ((1 : Int) = 0 ∨ (1 : Int) = 1 ∨ (1 : Int) = 2 ∨ (1 : Int) = 4) ∧
      (tState 63 0 32 1 2 [1, 2, 3, 4, 5, 6] []).src = (tState 63 0 32 1 2 [1, 2, 3, 4, 8, 9] []).src ∧
      (tState 63 0 32 1 2 [1, 2, 3, 4, 5, 6] []).dst = (tState 63 0 32 1 2 [1, 2, 3, 4, 8, 9] []).dst ∧
      (tState 63 0 32 1 2 [1, 2, 3, 4, 5, 6] []).height = (tState 63 0 32 1 2 [1, 2, 3, 4, 8, 9] []).height ∧
      (tState 63 0 32 1 2 [1, 2, 3, 4, 5, 6] []).width = (tState 63 0 32 1 2 [1, 2, 3, 4, 8, 9] []).width ∧
      (tState 63 0 32 1 2 [1, 2, 3, 4, 5, 6] []).cfg = (tState 63 0 32 1 2 [1, 2, 3, 4, 8, 9] []).cfg) ∧
    (∀ r c, r < 1 → c < 2 → (1 = 0 ∨ retainedChroma 4 4 r c = true) →
      memRead (tState 63 0 32 1 2 [1, 2, 3, 4, 5, 6] []) (pixelAddr 0 2 r c 1) =
        memRead (tState 63 0 32 1 2 [1, 2, 3, 4, 8, 9] []) (pixelAddr 0 2 r c 1)) ∧
    (∃ t, exec (.subsample 1 1) (tState 63 0 32 1 2 [1, 2, 3, 4, 8, 9] []) = .next t ∧ t.status = 0) ∧
    (∃ t, exec (.subsample 1 1) (tState 63 0 32 1 2 [1, 2, 3, 4, 5, 6] []) = .next t) := by
  refine ⟨by decide, ?_, ⟨_, rfl, by decide⟩, ⟨_, rfl⟩⟩
  intro r c hr hc hret
  interval_cases r
  interval_cases c
  · decide
  · exact absurd hret (by decide)

theorem witness_FullSamplingIsAPaddedCopy :
    (∃ t, exec (.subsample 4 4) (tState 63 0 32 2 2 [1, 2, 3, 4, 5, 6, 7, 8, 9, 10, 11, 12] []) = .next t ∧
      t.status = 0) ∧ (tState 63 0 32 2 2 [] []).height.toNat = 2 ∧ (tState 63 0 32 2 2 [] []).width.toNat = 2 ∧ (2 % 2 = 0 ∧ 11 < 3 * 2 * 2) :=
  ⟨⟨_, rfl, by decide⟩, by decide, by decide, by decide⟩

theorem witness_ZeroSecondRowDuplicatesChroma :
    ∃ t, exec (.subsample 2 0) (tState 63 0 32 1 1 [7, 8, 9] []) = .next t ∧ t.status = 0 ∧
      2 * 0 + 1 < t.outH.toNat ∧ 1 < t.outW.toNat := ⟨_, rfl, by decide, by decide, by decide⟩

theorem witness_PaddingRepeatsTheLastRowAndColumn :
    (∃ t, exec (.subsample 1 4) (tState 63 0 32 1 1 [7, 8, 9] []) = .next t ∧ t.status = 0) ∧
    (tState 63 0 32 1 1 [7, 8, 9] []).height.toNat = 1 ∧ (tState 63 0 32 1 1 [7, 8, 9] []).width.toNat = 1 ∧
    (1 % 2 = 1 ∧ 1 < evenUp 1) := ⟨⟨_, rfl, by decide⟩, by decide, by decide, by decide⟩

/-- Columns 0 and 1 of a row of factor 2. -/
theorem witness_ChromaIsConstantOnBlocks :
    divideFactor 2 = some 2 ∧
    (∃ t, exec (.subsample 2 2) (tState 63 0 32 1 2 [1, 2, 3, 4, 5, 6] []) = .next t ∧ t.status = 0 ∧
      0 < t.outW.toNat ∧ 1 < t.outW.toNat) ∧ 0 < (tState 63 0 32 1 2 [1, 2, 3, 4, 5, 6] []).height.toNat ∧
    0 / (if 0 % 2 = 0 ∨ (2 : Int) = 0 then 2 else 2) = 1 / (if 0 % 2 = 0 ∨ (2 : Int) = 0 then 2 else 2) :=
  ⟨by decide, ⟨_, rfl, by decide, by decide, by decide⟩, by decide, by decide⟩

theorem witness_ByteCountOrder :
    0 < 1 ∧ ((1 : Int) = 1 ∨ (1 : Int) = 2 ∨ (1 : Int) = 4) ∧ ((4 : Int) = 1 ∨ (4 : Int) = 2 ∨ (4 : Int) = 4) ∧
    ((0 : Int) = 0 ∨ (0 : Int) = 1 ∨ (0 : Int) = 2 ∨ (0 : Int) = 4) ∧
    ((4 : Int) = 0 ∨ (4 : Int) = 1 ∨ (4 : Int) = 2 ∨ (4 : Int) = 4) ∧ 2 ≤ 2 ∧
    divideFactor 1 = some 4 ∧ divideFactor 0 = some 0 ∧ divideFactor 4 = some 1 ∧ (1 : Int) ≤ 4 ∧ (0 : Int) ≤ 4 := by
  decide

theorem witness_ByteCountFormula :
    ((2 : Int) = 1 ∨ (2 : Int) = 2 ∨ (2 : Int) = 4) ∧
    ((2 : Int) = 0 ∨ (2 : Int) = 1 ∨ (2 : Int) = 2 ∨ (2 : Int) = 4) ∧ divideFactor 2 = some 2 ∧ 480 % 2 = 0 ∧ 640 % 4 = 0 := by decide

theorem witness_ByteCountIsTheNumberRetained :
    (tState 63 0 32 1 1 [7, 8, 9] []).height.toNat = 1 ∧ (tState 63 0 32 1 1 [7, 8, 9] []).width.toNat = 1 ∧
    divideFactor 4 = some 1 ∧ divideFactor 0 = some 0 ∧
    ∃ t, exec (.subsample 4 0) (tState 63 0 32 1 1 [7, 8, 9] []) = .next t ∧ t.status = 0 :=
  ⟨by decide, by decide, by decide, by decide, ⟨_, rfl, by decide⟩⟩

end Sys2Proof.Tests
end

/-! PROOFS. What every command and every step leaves alone (R9, R22). -/

namespace Sys2Proof.Machine

open Sys2Proof

/-- A register write leaves the parameters alone: each case of it writes an operand register or nothing. -/
@[simp] theorem regWrite_cfg (i : Nat) (v : Word) (s : State) : (regWrite i v s).cfg = s.cfg := by
  obtain ⟨-, h⟩ | ⟨-, h⟩ | ⟨-, h⟩ | ⟨-, h⟩ | ⟨-, h⟩ := regWrite_cases i v s <;> rw [h]

/-- A failed command changes nothing but the four RO registers (R95). -/
theorem cmdError_same (e : CmdErr) (s : State) : SameApartFromResults s (cmdError e s) :=
  ⟨rfl, rfl, rfl, rfl, rfl, rfl, rfl, rfl⟩

/-- The frame of a command, failed or completed (R9 (iii), R22). -/
theorem exec_same {i : Instr} {s t : State} (h : exec i s = .next t) : SameApartFromResults s t := by
  cases i with
  | toycbcr =>
    obtain ⟨e, rfl, -⟩ | ⟨-, -, -, -, -, -, hsame⟩ := execToycbcr_spec h
    · exact cmdError_same e s
    · exact hsame
  | subsample a b =>
    obtain ⟨e, rfl, -⟩ | ⟨-, -, -, -, -, -, -, hsame⟩ := execSubsample_spec h
    · exact cmdError_same e s
    · exact hsame

/-- The frame of a write to `CMD`, whether its word is a command or reserved (R44, R94). -/
theorem writeCmd_same {w : Word} {s t : State} (h : writeCmd w s = .next t) : SameApartFromResults s t := by
  unfold writeCmd at h
  cases hd : decode w with
  | ok i =>
    rw [hd] at h
    exact exec_same h
  | error c =>
    rw [hd] at h
    injection h with h
    exact h ▸ cmdError_same .opcode s

/-- Settles O11: of the events of `step_cases`, a command keeps the parameters by its frame and every other event by
the form of the state it answers. -/
theorem stepKeepsTheParameters : Obligations.StepKeepsTheParameters := by
  intro s t h
  obtain ⟨-, rfl⟩ | ⟨w, rest, -, hcmd⟩ | ⟨i, v, rest, -, -, rfl⟩ | ⟨i, rest, -, rfl⟩ | ⟨a, v, rest, -, -, rfl⟩ |
    ⟨a, rest, -, -, rfl⟩ | ⟨rest, -, rfl⟩ | ⟨rest, -, rfl⟩ := step_cases h
  case inr.inl =>
    obtain ⟨-, -, -, -, hcfg, -, -, -⟩ := writeCmd_same hcmd
    exact hcfg
  case inr.inr.inl => exact regWrite_cfg i v _
  all_goals rfl

end Sys2Proof.Machine

/-! PROOFS. Rounding and clamping (R6), in terms of the floor `n / d` and the remainder `n % d`: `n / d` is an exact
half when `2 * (n % d) = d`. -/

namespace Sys2Proof.Machine

open Sys2Proof

/-- Twice the distance of n / d from an integer q, over d, by the floor and the remainder. -/
theorem two_mul_sub_eq (n d q : Int) : 2 * n - 2 * d * q = 2 * (n % d) - 2 * d * (q - n / d) := by
  linear_combination -2 * Int.emod_add_mul_ediv n d

/-- The remainder that `rdiv` tests for an exact half. -/
theorem two_mul_emod (n d : Int) : (2 * n) % (2 * d) = 2 * (n % d) :=
  Int.mul_emod_mul_of_pos n d (by decide)

/-- The quotient of `rdiv` away from `HALF_EVEN`'s ties: the floor below a half, one more from a half on. -/
theorem add_half_ediv {n d : Int} (hd : 0 < d) :
    (2 * n + d) / (2 * d) = if 2 * (n % d) < d then n / d else n / d + 1 := by
  have hr0 := Int.emod_nonneg n hd.ne'
  have hr1 := Int.emod_lt_of_pos n hd
  have hn := Int.emod_add_mul_ediv n d
  rw [Int.ediv_eq_iff_of_pos (by omega)]
  split <;> constructor <;> linarith

theorem rdiv_below_half {tie : RoundTie} {n d : Int} (hd : 0 < d) (h : 2 * (n % d) < d) : rdiv tie n d = n / d := by
  cases tie with
  | halfUp => rw [rdiv, add_half_ediv hd, if_pos h]
  | halfEven => rw [rdiv, two_mul_emod, if_neg h.ne, add_half_ediv hd, if_pos h]

theorem rdiv_above_half {tie : RoundTie} {n d : Int} (hd : 0 < d) (h : d < 2 * (n % d)) :
    rdiv tie n d = n / d + 1 := by
  cases tie with
  | halfUp => rw [rdiv, add_half_ediv hd, if_neg h.not_gt]
  | halfEven => rw [rdiv, two_mul_emod, if_neg h.ne', add_half_ediv hd, if_neg h.not_gt]

theorem rdiv_halfUp_at_half {n d : Int} (hd : 0 < d) (h : 2 * (n % d) = d) : rdiv .halfUp n d = n / d + 1 := by
  rw [rdiv, add_half_ediv hd, if_neg h.not_lt]

/-- An even floor stays, an odd one is rounded up to the even neighbour. -/
theorem rdiv_halfEven_at_half {n d : Int} (h : 2 * (n % d) = d) : rdiv .halfEven n d = n / d + n / d % 2 := by
  rw [rdiv, two_mul_emod, if_pos h]
  split <;> omega

/-- All that `rdiv` can answer: the floor when n / d is at most a half above it, the next integer when it is at least
a half above it. -/
theorem rdiv_cases (tie : RoundTie) (n : Int) {d : Int} (hd : 0 < d) :
    (2 * (n % d) ≤ d ∧ rdiv tie n d = n / d) ∨ (d ≤ 2 * (n % d) ∧ rdiv tie n d = n / d + 1) := by
  rcases lt_trichotomy (2 * (n % d)) d with hlt | heq | hgt
  · exact Or.inl ⟨hlt.le, rdiv_below_half hd hlt⟩
  · cases tie with
    | halfUp => exact Or.inr ⟨heq.ge, rdiv_halfUp_at_half hd heq⟩
    | halfEven =>
      rw [rdiv_halfEven_at_half heq]
      omega
  · exact Or.inr ⟨hgt.le, rdiv_above_half hd hgt⟩

/-- `rdiv` is within a half of n / d. -/
theorem abs_sub_rdiv_le (tie : RoundTie) (n : Int) {d : Int} (hd : 0 < d) :
    |2 * n - 2 * d * rdiv tie n d| ≤ d := by
  have hr0 := Int.emod_nonneg n hd.ne'
  have hr1 := Int.emod_lt_of_pos n hd
  rw [two_mul_sub_eq, abs_le]
  obtain ⟨hr, h⟩ | ⟨hr, h⟩ := rdiv_cases tie n hd
  · rw [h, sub_self]
    omega
  · rw [h, add_sub_cancel_left]
    omega

/-- The tie rule matters at an exact half only (R6). -/
theorem rdiv_eq_of_ne_half (tie tie' : RoundTie) {n d : Int} (hd : 0 < d) (h : 2 * (n % d) ≠ d) :
    rdiv tie n d = rdiv tie' n d := by
  rcases h.lt_or_gt with hlt | hgt
  · rw [rdiv_below_half hd hlt, rdiv_below_half hd hlt]
  · rw [rdiv_above_half hd hgt, rdiv_above_half hd hgt]

/-- The byte of R6's `clamp8`, as the integer it holds. -/
theorem clampByte_toNat (v : Int) : ((clampByte v).toNat : Int) = max 0 (min 255 v) := by
  rw [clampByte, clamp8, BitVec.toNat_ofNat]
  omega

/-- Settles O34: the distance is `abs_sub_rdiv_le`, and at a half each tie rule answers the neighbour it names. -/
theorem rdivRoundsToNearest : Obligations.RdivRoundsToNearest := by
  intro tie n d hd
  refine ⟨abs_sub_rdiv_le tie n hd, fun half => ?_⟩
  rw [two_mul_emod] at half
  constructor
  · rintro rfl
    rw [rdiv_halfUp_at_half hd half]
    linarith [Int.emod_add_mul_ediv n d]
  · rintro rfl
    rw [rdiv_halfEven_at_half half]
    omega

/-- Settles O37: off the half the two rules agree, and on a half with an odd floor too; an even floor q gives q + 1
and q, which the clamp makes equal unless q is in 0 to 254. -/
theorem tieRulesDifferOnlyAtEvenHalves : Obligations.TieRulesDifferOnlyAtEvenHalves := by
  intro n d hd hne
  have half : 2 * (n % d) = d := by
    by_contra h
    exact hne (congrArg clampByte (rdiv_eq_of_ne_half .halfUp .halfEven hd h))
  rw [rdiv_halfUp_at_half hd half, rdiv_halfEven_at_half half] at hne ⊢
  have hval : (clampByte (n / d + 1)).toNat ≠ (clampByte (n / d + n / d % 2)).toNat :=
    fun h => hne (BitVec.eq_of_toNat_eq h)
  have hup := clampByte_toNat (n / d + 1)
  have heven := clampByte_toNat (n / d + n / d % 2)
  refine ⟨(two_mul_emod n d).trans half, ?_⟩
  omega

end Sys2Proof.Machine

/-! PROOFS. Both commands under one description: the checks, the shape, the count and the samples of the result of a
command, by the command; what a command answers is then said once, for both (R50, R59, R95, R96). -/

namespace Sys2Proof.Machine

open Sys2Proof

/-- The checks a command makes after decoding (R96). -/
def commandCheck (i : Instr) (s : State) : Option CmdErr :=
  match i with
  | .toycbcr => toycbcrCheck s.cfg (sampleOperands s)
  | .subsample a b => subsampleCheck s.cfg a b (sampleOperands s)

/-- The rows of a command's destination (R50, R63). -/
def destHeight (i : Instr) (s : State) : Nat :=
  match i with
  | .toycbcr => s.height.toNat
  | .subsample _ _ => evenUp s.height.toNat

/-- The columns of a command's destination (R50, R63). -/
def destWidth (i : Instr) (s : State) : Nat :=
  match i with
  | .toycbcr => s.width.toNat
  | .subsample _ _ => evenUp s.width.toNat

/-- The count a successful command reports in `BYTES` (R13). -/
def reportedCount (i : Instr) (s : State) : Nat :=
  match i with
  | .toycbcr => 0
  | .subsample a b => sampleCount s.height.toNat s.width.toNat (legalFactor a) (legalFactor b)

/-- The samples a successful command stores (R58, R74). -/
def destSamples (i : Instr) (s : State) : Samples :=
  match i with
  | .toycbcr => transformSamples s.cfg.roundTie (samplesAt s s.src.toNat s.width.toNat)
  | .subsample a b => selectSamples s.height.toNat s.width.toNat (legalFactor a) (legalFactor b)
      (samplesAt s s.src.toNat s.width.toNat)

/-- `t` is what the command `i` leaves when it succeeds from `s`. -/
structure Completed (i : Instr) (s t : State) : Prop where
  check : commandCheck i s = none
  legal : ArraysLegal s (3 * s.height.toNat * s.width.toNat) (3 * destHeight i s * destWidth i s)
  status : t.status = 0
  bytes : t.bytes.toNat = reportedCount i s
  outH : t.outH.toNat = destHeight i s
  outW : t.outW.toNat = destWidth i s
  reads : ∀ x, memRead t x =
    pixelsDone s.dst.toNat (destWidth i s) (destSamples i s) (destHeight i s * destWidth i s) s x
  same : SameApartFromResults s t

/-- With a legal pair the checks of `SUBSAMPLE` are those on its arrays (R96). -/
theorem commandCheck_subsample_none_iff {a b : Int} {s : State} (h : samplingCheck a b = none) :
    commandCheck (.subsample a b) s = none ↔
      ArraysLegal s (3 * s.height.toNat * s.width.toNat) (3 * evenUp s.height.toNat * evenUp s.width.toNat) := by
  simp only [commandCheck, subsampleCheck, h]
  exact arrayCheck_none_iff s

/-- Everything a command can do: the error its checks name, or completion. -/
theorem exec_spec {i : Instr} {s t : State} (h : exec i s = .next t) :
    (∃ e, commandCheck i s = some e ∧ t = cmdError e s) ∨ Completed i s t := by
  cases i with
  | toycbcr =>
    obtain ⟨e, ht, hc⟩ | ⟨hl, hstatus, hbytes, hH, hW, hreads, hsame⟩ := execToycbcr_spec h
    · exact Or.inl ⟨e, hc, ht⟩
    · exact Or.inr ⟨(arrayCheck_none_iff s).mpr hl, hl, hstatus, congrArg BitVec.toNat hbytes,
        congrArg BitVec.toNat hH, congrArg BitVec.toNat hW, hreads, hsame⟩
  | subsample a b =>
    obtain ⟨e, ht, hc⟩ | ⟨hs, hl, hstatus, hbytes, hH, hW, hreads, hsame⟩ := execSubsample_spec h
    · exact Or.inl ⟨e, hc, ht⟩
    · exact Or.inr ⟨(commandCheck_subsample_none_iff hs).mpr hl, hl, hstatus, hbytes, hH, hW, hreads, hsame⟩

/-- Every command finishes (R113). -/
theorem exec_next (i : Instr) (s : State) : ∃ t, exec i s = .next t := by
  obtain ⟨e, he⟩ | ⟨n, h, w, u, he⟩ := exec_cases i s
  · exact ⟨_, he⟩
  · exact ⟨_, he⟩

/-- A command whose checks all pass completes. -/
theorem completed_of_check_none {i : Instr} {s : State} (hc : commandCheck i s = none) :
    ∃ t, exec i s = .next t ∧ Completed i s t := by
  obtain ⟨t, ht⟩ := exec_next i s
  obtain ⟨e, he, -⟩ | hdone := exec_spec ht
  · cases hc.symm.trans he
  · exact ⟨t, ht, hdone⟩

/-- The checks read the operand registers and the parameters alone. -/
theorem commandCheck_congr {i : Instr} {s t : State} (h : SameApartFromResults s t) :
    commandCheck i t = commandCheck i s := by
  obtain ⟨hsrc, hdst, hH, hW, hcfg, -, -, -⟩ := h
  have ho : sampleOperands t = sampleOperands s := by simp only [sampleOperands, hsrc, hdst, hH, hW]
  cases i <;> simp only [commandCheck, ho, hcfg]

theorem errStatus_toNat_le (e : CmdErr) : (errStatus e).toNat ≤ 7 := by cases e <;> decide

namespace Completed

variable {i : Instr} {s t : State}

theorem outH_pos (h : Completed i s t) : 1 ≤ t.outH.toNat := by
  obtain ⟨hH, -⟩ := h.legal
  rw [h.outH]
  cases i <;> simp only [destHeight, evenUp] <;> omega

theorem outW_pos (h : Completed i s t) : 1 ≤ t.outW.toNat := by
  obtain ⟨-, hW, -⟩ := h.legal
  rw [h.outW]
  cases i <;> simp only [destWidth, evenUp] <;> omega

/-- The destination lies inside `MEM` (R92). -/
theorem dest_inside (h : Completed i s t) :
    s.dst.toNat + 3 * t.outH.toNat * t.outW.toNat ≤ s.cfg.memSize := by
  obtain ⟨-, -, -, hdst, -⟩ := h.legal
  rwa [h.outH, h.outW]

/-- The pair of a `SUBSAMPLE` that completes is legal (R61). -/
theorem pair_legal {a b : Int} (h : Completed (.subsample a b) s t) : legalSpec a b := by
  cases hs : samplingCheck a b with
  | none => exact samplingCheck_legal hs
  | some e =>
    have hc := h.check
    simp only [commandCheck, subsampleCheck, hs] at hc
    cases hc

/-- `DF(a)` of a `SUBSAMPLE` that completes is a divisor (R62). -/
theorem factor_pos {a b : Int} (h : Completed (.subsample a b) s t) : 0 < legalFactor a := by
  obtain ⟨ha, -⟩ := legalFactor_of_legal h.pair_legal
  omega

/-- The count is at most the number of samples of the destination (R76). -/
theorem bytes_le (h : Completed i s t) : t.bytes.toNat ≤ 3 * t.outH.toNat * t.outW.toNat := by
  rw [h.bytes, h.outH, h.outW, Nat.mul_assoc]
  cases i with
  | toycbcr => exact Nat.zero_le _
  | subsample a b =>
    have hpadded : s.height.toNat * s.width.toNat ≤ evenUp s.height.toNat * evenUp s.width.toNat :=
      Nat.mul_le_mul (Nat.le_add_right _ _) (Nat.le_add_right _ _)
    exact (sampleCount_le h.factor_pos).trans (Nat.mul_le_mul_left 3 hpadded)

/-- Sample `k` of a pixel of the destination. -/
theorem memRead_pixel (h : Completed i s t) {r c k : Nat} (hr : r < destHeight i s) (hc : c < destWidth i s)
    (hk : k < 3) :
    memRead t (pixelAddr s.dst.toNat (destWidth i s) r c k) = destSamples i s r c k := by
  rw [h.reads]
  refine pixelsDone_pixel hc hk ?_
  have := Nat.mul_le_mul_right (destWidth i s) (show r + 1 ≤ destHeight i s by omega)
  rw [Nat.succ_mul] at this
  omega

/-- Every byte outside the destination is as it was (R26). -/
theorem same_outside (h : Completed i s t) :
    MemSameOutside s.dst.toNat (3 * destHeight i s * destWidth i s) s t := by
  intro x hx
  rw [Nat.mul_assoc] at hx
  rw [h.reads, pixelsDone, if_neg (by omega)]

/-- The source is as it was: it has no byte in common with the destination (R93). -/
theorem source_same (h : Completed i s t) {j : Nat} (hj : j < 3 * s.height.toNat * s.width.toNat) :
    memRead t (s.src.toNat + j) = memRead s (s.src.toNat + j) := by
  obtain ⟨-, -, -, -, hdisjoint⟩ := h.legal
  exact h.same_outside _ (by omega)

end Completed

/-- Settles O28: the two ends of `exec_spec`, a failure with a code that is not 0 and zeroed result registers, or a
completion with dimensions of at least 1. -/
theorem everyCommandFinishes : Obligations.EveryCommandFinishes := by
  intro i s
  obtain ⟨t, ht⟩ := exec_next i s
  refine ⟨t, ht, ?_⟩
  obtain ⟨e, -, rfl⟩ | h := exec_spec ht
  · simpa using ⟨errStatus_toNat_le e, errStatus_ne_zero e⟩
  · simpa [h.status] using ⟨h.outH_pos, h.outW_pos⟩

/-- Settles O29: a failure changes the result registers only, and a completion leaves what is outside its destination,
the source with it. -/
theorem commandFrame : Obligations.CommandFrame := by
  intro i s t ht
  refine ⟨exec_same ht, ?_⟩
  obtain ⟨e, -, rfl⟩ | h := exec_spec ht
  · exact ⟨fun _ => ⟨rfl, rfl, rfl, fun _ => rfl⟩, fun h0 => absurd h0 (errStatus_ne_zero e)⟩
  · refine ⟨fun hne => absurd h.status hne, fun _ => ⟨?_, h.dest_inside, fun _ => h.source_same⟩⟩
    rw [h.outH, h.outW]
    exact h.same_outside

end Sys2Proof.Machine

/-! PROOFS. The invariant of the machine (Safety.lean) through every event: memory by the writes of a command's loops,
the result registers by `Completed`. -/

namespace Sys2Proof.Machine

open Sys2Proof

/-- The part of the invariant that speaks of memory: canonical form, and addresses below `bound` only. -/
structure Memory.Inside (bound : Nat) (m : Memory) : Prop where
  wf : m.wf = true
  below : ∀ cell ∈ m, cell.1 < bound

theorem State.Inv.inside {s : State} (h : s.Inv) : s.mem.Inside s.cfg.memSize := ⟨h.memWf, h.memInside⟩

theorem inside_memWrite {bound a : Nat} {v : Byte} {s : State} (h : s.mem.Inside bound) (ha : a < bound) :
    (memWrite a v s).mem.Inside bound := by
  refine ⟨memWrite_wf a v h.wf, fun cell hc => ?_⟩
  obtain rfl | hold := mem_store hc
  · exact ha
  · exact h.below cell hold

/-- A loop that writes each pixel of an array inside `bound` keeps memory inside it. -/
theorem inside_forPixels {bound base h w : Nat} {body : Nat → Nat → State → State} {s : State}
    (hs : s.mem.Inside bound) (hfit : base + 3 * h * w ≤ bound)
    (turn : ∀ r c t, ∃ v0 v1 v2, body r c t = writePixel base w r c v0 v1 v2 t) :
    (forPixels h w body s).mem.Inside bound := by
  refine forPixels_rule (fun _ t => t.mem.Inside bound) hs fun r c t hr hc ht => ?_
  have hin : ∀ k, k < 3 → pixelAddr base w r c k < bound := fun k hk => (pixelAddr_lt hr hc hk).trans_le hfit
  obtain ⟨v0, v1, v2, hbody⟩ := turn r c t
  rw [hbody]
  exact inside_memWrite (inside_memWrite (inside_memWrite ht (hin 0 (by decide))) (hin 1 (by decide)))
    (hin 2 (by decide))

/-- A command lists only addresses of `MEM` (R92). -/
theorem exec_inside {i : Instr} {s t : State} (h : exec i s = .next t) (hs : s.mem.Inside s.cfg.memSize) :
    t.mem.Inside s.cfg.memSize := by
  cases i with
  | toycbcr =>
    obtain ⟨e, -, he⟩ | ⟨⟨-, -, -, hdst, -⟩, he⟩ := execToycbcr_cases s <;> cases he.symm.trans h
    · exact hs
    · exact inside_forPixels hs hdst fun r c t => ⟨_, _, _, rfl⟩
  | subsample a b =>
    obtain ⟨e, -, he⟩ | ⟨-, ⟨-, -, -, hdst, -⟩, he⟩ := execSubsample_cases a b s <;> cases he.symm.trans h
    · exact hs
    · exact inside_forPixels hs hdst fun r c t => ⟨_, _, _, rfl⟩

/-- A failed command keeps the invariant (R95). -/
theorem cmdError_inv (e : CmdErr) {s : State} (hs : s.Inv) : (cmdError e s).Inv where
  memWf := hs.memWf
  memInside := hs.memInside
  statusCode := errStatus_toNat_le e
  failedZero := fun _ => ⟨rfl, rfl, rfl⟩
  outTogether := Iff.rfl
  outFits := by simp
  bytesBound := by simp

/-- A completed command has the invariant's registers, whatever they held before (R12 to R14). -/
theorem Completed.inv {i : Instr} {s t : State} (h : Completed i s t) (hm : t.mem.Inside s.cfg.memSize) : t.Inv := by
  obtain ⟨-, -, -, -, hcfg, -, -, -⟩ := h.same
  have hH := h.outH_pos
  have hW := h.outW_pos
  have hfit := h.dest_inside
  exact {
    memWf := hm.wf
    memInside := by rw [hcfg]; exact hm.below
    statusCode := by simp [h.status]
    failedZero := fun hne => absurd h.status hne
    outTogether := by bv_omega
    outFits := by rw [hcfg]; omega
    bytesBound := h.bytes_le }

theorem exec_inv {i : Instr} {s t : State} (h : exec i s = .next t) (hs : s.Inv) : t.Inv := by
  obtain ⟨e, -, rfl⟩ | hdone := exec_spec h
  · exact cmdError_inv e hs
  · exact hdone.inv (exec_inside h hs.inside)

/-- A write to `CMD` is a command, or the failure of a reserved word (R94). -/
theorem writeCmd_cases {w : Word} {s t : State} (h : writeCmd w s = .next t) :
    (∃ i, decode w = .ok i ∧ exec i s = .next t) ∨ (∃ e, decode w = .error e ∧ t = cmdError .opcode s) := by
  cases hd : decode w <;> simp only [writeCmd, hd] at h
  case ok i => exact Or.inl ⟨i, rfl, h⟩
  case error e =>
    injection h with h
    exact Or.inr ⟨e, rfl, h.symm⟩

/-- The invariant speaks of memory, the parameters and the result registers alone. -/
theorem State.Inv.congr {s t : State} (h : s.Inv) (hmem : t.mem = s.mem) (hcfg : t.cfg = s.cfg)
    (hstatus : t.status = s.status) (hbytes : t.bytes = s.bytes) (hH : t.outH = s.outH) (hW : t.outW = s.outW) :
    t.Inv := by
  constructor <;> simp only [hmem, hcfg, hstatus, hbytes, hH, hW]
  exacts [h.memWf, h.memInside, h.statusCode, h.failedZero, h.outTogether, h.outFits, h.bytesBound]

/-- What a host write to a register other than `CMD` leaves alone (R80). -/
theorem regWrite_frame (i : Nat) (v : Word) (s : State) :
    (regWrite i v s).mem = s.mem ∧ (regWrite i v s).powerUps = s.powerUps ∧ (regWrite i v s).status = s.status ∧
      (regWrite i v s).bytes = s.bytes ∧ (regWrite i v s).outH = s.outH ∧ (regWrite i v s).outW = s.outW := by
  obtain ⟨-, h⟩ | ⟨-, h⟩ | ⟨-, h⟩ | ⟨-, h⟩ | ⟨-, h⟩ := regWrite_cases i v s <;> rw [h] <;>
    exact ⟨rfl, rfl, rfl, rfl, rfl, rfl⟩

/-- With every result register 0 the invariant is that of memory (R103). -/
theorem inv_of_results_zero {s : State} (hm : s.mem.Inside s.cfg.memSize) (hstatus : s.status = 0)
    (hbytes : s.bytes = 0) (hH : s.outH = 0) (hW : s.outW = 0) : s.Inv := by
  refine ⟨hm.wf, hm.below, ?_, ?_, ?_, ?_, ?_⟩ <;> simp [hstatus, hbytes, hH, hW]

/-- No byte written. -/
theorem inside_nil (bound : Nat) : Memory.Inside bound [] := ⟨rfl, by simp⟩

/-- Settles O13. -/
theorem resetHasTheInvariant : Obligations.ResetHasTheInvariant :=
  inv_of_results_zero (inside_nil _) rfl rfl rfl rfl

/-- Settles O12: a command by `exec_inv`, a byte write by its address being of `MEM`, a reset by its zeroed registers;
the other events touch nothing that the invariant speaks of. -/
theorem stepKeepsTheInvariant : Obligations.StepKeepsTheInvariant := by
  intro s t hs h
  have hrest : ∀ rest, State.Inv { s with pending := rest } := fun rest => hs.congr rfl rfl rfl rfl rfl rfl
  obtain ⟨-, rfl⟩ | ⟨w, rest, -, hcmd⟩ | ⟨i, v, rest, -, -, rfl⟩ | ⟨i, rest, -, rfl⟩ | ⟨a, v, rest, -, ha, rfl⟩ |
    ⟨a, rest, -, -, rfl⟩ | ⟨rest, -, rfl⟩ | ⟨rest, -, rfl⟩ := step_cases h
  · exact hs
  · obtain ⟨i, -, hexec⟩ | ⟨e, -, rfl⟩ := writeCmd_cases hcmd
    · exact exec_inv hexec (hrest rest)
    · exact cmdError_inv .opcode (hrest rest)
  · obtain ⟨hmem, -, hstatus, hbytes, hH, hW⟩ := regWrite_frame i v { s with pending := rest }
    exact (hrest rest).congr hmem (regWrite_cfg i v _) hstatus hbytes hH hW
  · exact hs.congr rfl rfl rfl rfl rfl rfl
  · have hm := inside_memWrite (v := v) (hrest rest).inside ha
    exact { hrest rest with memWf := hm.wf, memInside := hm.below }
  · exact hs.congr rfl rfl rfl rfl rfl rfl
  · exact inv_of_results_zero hs.inside rfl rfl rfl rfl
  · exact inv_of_results_zero (inside_nil _) rfl rfl rfl rfl

end Sys2Proof.Machine

/-! PROOFS. What one step does, event by event (R80, R81, R103, R104). -/

namespace Sys2Proof.Machine

open Sys2Proof

/-! ### One event -/

/-- A step whose event writes to `CMD` (R80). -/
theorem step_writeCmd {s : State} {w : Word} {rest : List Event} (h : s.pending = .wr 4 w :: rest) :
    step s = writeCmd w { s with pending := rest } := by
  rw [step_cons h, perform, hostWrite, if_pos rfl]

/-- A step whose event writes to another register (R80). -/
theorem step_regWrite {s : State} {i : Nat} {v : Word} {rest : List Event} (h : s.pending = .wr i v :: rest)
    (hi : i ≠ 4) : step s = .next (regWrite i v { s with pending := rest }) := by
  rw [step_cons h, perform, hostWrite, if_neg hi]

theorem writeCmd_of_ok {w : Word} {i : Instr} (h : decode w = .ok i) (s : State) : writeCmd w s = exec i s := by
  simp only [writeCmd, h]

/-- A reserved word fails with code 7 (R94). -/
theorem writeCmd_of_error {w : Word} {e : ReservedWord} (h : decode w = .error e) (s : State) :
    writeCmd w s = .next (failedWith 7 s) := by
  simp only [writeCmd, h]
  rfl

/-- A register that no operand stands in ignores the host's write (R15, R16). -/
theorem regWrite_of_four_le {i : Nat} (hi : 4 ≤ i) (v : Word) (s : State) : regWrite i v s = s := by
  obtain ⟨h0, -⟩ | ⟨h1, -⟩ | ⟨h2, -⟩ | ⟨h3, -⟩ | ⟨-, h⟩ := regWrite_cases i v s
  case inr.inr.inr.inr => exact h
  all_goals omega

/-- With all eight registers 0 every index reads 0 (R15, R103). -/
theorem regRead_of_registers_zero {s : State} (hsrc : s.src = 0) (hdst : s.dst = 0) (hheight : s.height = 0)
    (hwidth : s.width = 0) (hstatus : s.status = 0) (hbytes : s.bytes = 0) (hH : s.outH = 0) (hW : s.outW = 0)
    (i : Nat) : regRead s i = 0 := by
  unfold regRead
  split <;> simp only [hsrc, hdst, hheight, hwidth, hstatus, hbytes, hH, hW]

/-- Settles O7. -/
theorem stepRunsTheDecodedCommand : Obligations.StepRunsTheDecodedCommand := by
  intro s w rest i hp hd _
  rw [step_writeCmd hp, writeCmd_of_ok hd]

/-- Settles O15. -/
theorem hostWriteByRegister : Obligations.HostWriteByRegister := by
  intro s i v rest hp
  refine ⟨?_, ?_, ?_, ?_, ?_, ?_, ?_⟩
  iterate 4
    rintro rfl
    exact step_regWrite hp (by decide)
  · rintro rfl c hd
    rw [step_writeCmd hp, writeCmd_of_ok hd]
  · rintro rfl e hd
    rw [step_writeCmd hp, writeCmd_of_error hd]
  · intro hi
    rw [step_regWrite hp (by omega), regWrite_of_four_le (by omega)]

/-- Settles O16: the answer is `regRead`, which each clause evaluates at its index. -/
theorem hostReadByRegister : Obligations.HostReadByRegister := by
  intro s i rest hp
  refine ⟨regRead s i, ?_, ?_, ?_, ?_, ?_, ?_, ?_, ?_, ?_, ?_⟩
  · rw [step_cons hp, perform, hostRead]
    rfl
  iterate 8
    rintro rfl
    rfl
  rintro (rfl | hi)
  · rfl
  · exact regRead_absent s hi

/-- Settles O19. -/
theorem resetClearsRegistersAndKeepsMemory : Obligations.ResetClearsRegistersAndKeepsMemory := by
  refine ⟨fun s rest hp => ⟨hardwareReset { s with pending := rest }, step_cons hp, ?_, ?_, rfl, rfl, rfl, rfl⟩, ?_⟩
  · exact regRead_of_registers_zero rfl rfl rfl rfl rfl rfl rfl rfl
  · exact fun a => memRead_congr rfl rfl a
  · exact regRead_of_registers_zero rfl rfl rfl rfl rfl rfl rfl rfl

/-! ### What a step leaves alone -/

/-- Operand registers change only by a host write to them or a reset (R9 (iii)). -/
theorem step_operands_cases {s t : State} (h : step s = .next t) :
    (t.src = s.src ∧ t.dst = s.dst ∧ t.height = s.height ∧ t.width = s.width) ∨
      ∃ rest, (∃ i v, i < 4 ∧ s.pending = .wr i v :: rest) ∨
        s.pending = .reset :: rest ∨ s.pending = .powerOn :: rest := by
  obtain ⟨-, rfl⟩ | ⟨w, rest, -, hcmd⟩ | ⟨i, v, rest, hp, -, rfl⟩ | ⟨i, rest, -, rfl⟩ | ⟨a, v, rest, -, -, rfl⟩ |
    ⟨a, rest, -, -, rfl⟩ | ⟨rest, hp, -⟩ | ⟨rest, hp, -⟩ := step_cases h
  · exact Or.inl ⟨rfl, rfl, rfl, rfl⟩
  · obtain ⟨hsrc, hdst, hH, hW, -⟩ := writeCmd_same hcmd
    exact Or.inl ⟨hsrc, hdst, hH, hW⟩
  · by_cases hi : i < 4
    · exact Or.inr ⟨rest, Or.inl ⟨i, v, hi, hp⟩⟩
    · rw [regWrite_of_four_le (by omega)]
      exact Or.inl ⟨rfl, rfl, rfl, rfl⟩
  · exact Or.inl ⟨rfl, rfl, rfl, rfl⟩
  · exact Or.inl ⟨rfl, rfl, rfl, rfl⟩
  · exact Or.inl ⟨rfl, rfl, rfl, rfl⟩
  · exact Or.inr ⟨rest, Or.inr (Or.inl hp)⟩
  · exact Or.inr ⟨rest, Or.inr (Or.inr hp)⟩

/-- Result registers change only by a command or a reset (R12). -/
theorem step_results_cases {s t : State} (h : step s = .next t) :
    (t.status = s.status ∧ t.bytes = s.bytes ∧ t.outH = s.outH ∧ t.outW = s.outW) ∨
      ∃ rest, (∃ w, s.pending = .wr 4 w :: rest) ∨
        s.pending = .reset :: rest ∨ s.pending = .powerOn :: rest := by
  obtain ⟨-, rfl⟩ | ⟨w, rest, hp, -⟩ | ⟨i, v, rest, -, -, rfl⟩ | ⟨i, rest, -, rfl⟩ | ⟨a, v, rest, -, -, rfl⟩ |
    ⟨a, rest, -, -, rfl⟩ | ⟨rest, hp, -⟩ | ⟨rest, hp, -⟩ := step_cases h
  · exact Or.inl ⟨rfl, rfl, rfl, rfl⟩
  · exact Or.inr ⟨rest, Or.inl ⟨w, hp⟩⟩
  · obtain ⟨-, -, hresults⟩ := regWrite_frame i v { s with pending := rest }
    exact Or.inl hresults
  · exact Or.inl ⟨rfl, rfl, rfl, rfl⟩
  · exact Or.inl ⟨rfl, rfl, rfl, rfl⟩
  · exact Or.inl ⟨rfl, rfl, rfl, rfl⟩
  · exact Or.inr ⟨rest, Or.inr (Or.inl hp)⟩
  · exact Or.inr ⟨rest, Or.inr (Or.inr hp)⟩

/-- A byte of memory changes only by a command, a host write to it, or a power-on (R25, R104). -/
theorem step_memRead_cases {s t : State} (h : step s = .next t) (x : Nat) :
    memRead t x = memRead s x ∨
      ∃ rest, (∃ w, s.pending = .wr 4 w :: rest) ∨
        (∃ addr v, addr.toNat = x ∧ s.pending = .mwr addr v :: rest) ∨ s.pending = .powerOn :: rest := by
  obtain ⟨-, rfl⟩ | ⟨w, rest, hp, -⟩ | ⟨i, v, rest, -, -, rfl⟩ | ⟨i, rest, -, rfl⟩ | ⟨a, v, rest, hp, -, rfl⟩ |
    ⟨a, rest, -, -, rfl⟩ | ⟨rest, -, rfl⟩ | ⟨rest, hp, -⟩ := step_cases h
  · exact Or.inl rfl
  · exact Or.inr ⟨rest, Or.inl ⟨w, hp⟩⟩
  · obtain ⟨hmem, hpower, -⟩ := regWrite_frame i v { s with pending := rest }
    exact Or.inl (memRead_congr hmem hpower x)
  · exact Or.inl (memRead_congr rfl rfl x)
  · by_cases hx : a.toNat = x
    · exact Or.inr ⟨rest, Or.inr (Or.inl ⟨a, v, hx, hp⟩)⟩
    · rw [memRead_memWrite, if_neg (Ne.symm hx)]
      exact Or.inl (memRead_congr rfl rfl x)
  · exact Or.inl (memRead_congr rfl rfl x)
  · exact Or.inl (memRead_congr rfl rfl x)
  · exact Or.inr ⟨rest, Or.inr (Or.inr hp)⟩

/-- Settles O14. -/
theorem stepChangesOnlyWhatItsEventNames : Obligations.StepChangesOnlyWhatItsEventNames := fun _ _ h =>
  ⟨(step_operands_cases h).resolve_left, (step_results_cases h).resolve_left,
    fun x => (step_memRead_cases h x).resolve_left⟩

/-! ### Commands with the operand registers at 0 (R24) -/

/-- Validation lets the legal set through (R61). -/
theorem samplingCheck_of_legal {a b : Int} (h : legalSpec a b) : samplingCheck a b = none := by
  obtain ⟨ha, hb⟩ := h
  rw [samplingCheck, if_neg (by omega), if_neg (by omega), if_neg (by omega)]

/-- Without a row every array fails with `E_DIM`, whatever its address (R91). -/
theorem arrayCheck_of_height_zero (p : Params) {o : Operands} (h : o.height = 0) (slen dlen : Nat) :
    arrayCheck p o slen dlen = some .dim := by
  rw [arrayCheck, if_pos (Or.inl h)]

/-- A command whose checks name an error fails with its code (R95). -/
theorem exec_of_check_some {i : Instr} {s : State} {e : CmdErr} (h : commandCheck i s = some e) :
    exec i s = .next (failedWith (errCode e) s) := by
  obtain ⟨t, ht⟩ := exec_next i s
  obtain ⟨e', he, rfl⟩ | hdone := exec_spec ht
  · cases h.symm.trans he
    exact ht
  · cases h.symm.trans hdone.check

/-- Without a row `SUBSAMPLE` fails with the error of its pair, or else with `E_DIM` (R96). -/
theorem subsampleCheck_of_height_zero (p : Params) (a b : Int) {o : Operands} (h : o.height = 0) :
    subsampleCheck p a b o = some ((samplingCheck a b).getD .dim) := by
  cases hs : samplingCheck a b <;> simp only [subsampleCheck, hs, arrayCheck_of_height_zero p h] <;> rfl

/-- The code of a pair that meets no row: 4 for a legal pair, and else one of 1 to 3. -/
theorem errCode_samplingCheck_getD_dim (a b : Int) :
    (1 ≤ errCode ((samplingCheck a b).getD .dim) ∧ errCode ((samplingCheck a b).getD .dim) ≤ 4) ∧
      (errCode ((samplingCheck a b).getD .dim) = 4 ↔ legalSpec a b) := by
  cases hs : samplingCheck a b with
  | none => exact ⟨by decide, fun _ => samplingCheck_legal hs, fun _ => rfl⟩
  | some e =>
    have hillegal : ¬ legalSpec a b := fun hl => by simp [samplingCheck_of_legal hl] at hs
    obtain rfl | rfl | rfl := samplingCheck_some hs <;> simp [errCode, hillegal]

/-- Settles O21: with H = 0 the array checks answer `E_DIM`, unless the word or its pair is refused before. -/
theorem noCommandSucceedsWithResetOperands : Obligations.NoCommandSucceedsWithResetOperands := by
  intro s w rest hp _ _ hH _
  rw [step_writeCmd hp]
  have hrows : (sampleOperands { s with pending := rest }).height = 0 := congrArg BitVec.toNat hH
  cases hd : decode w with
  | error e => exact ⟨7, writeCmd_of_error hd _, by simp⟩
  | ok i =>
    rw [writeCmd_of_ok hd]
    cases i with
    | toycbcr =>
      refine ⟨4, exec_of_check_some (e := .dim) ?_, by simp⟩
      exact arrayCheck_of_height_zero _ hrows _ _
    | subsample a b =>
      refine ⟨_, exec_of_check_some (subsampleCheck_of_height_zero _ a b hrows), by simp, by simp, ?_⟩
      rintro _ _ ⟨⟩
      exact errCode_samplingCheck_getD_dim a b

end Sys2Proof.Machine

/-! PROOFS. What a command depends on (R17, R21, R77): not the result registers, and of memory the source alone. -/

namespace Sys2Proof.Machine

open Sys2Proof

/-! ### The result registers -/

/-- `s` with other values in the four RO registers. -/
def setResults (x y z u : Word) (s : State) : State := { s with status := x, bytes := y, outH := z, outW := u }

/-- A loop commutes with whatever each of its turns commutes with. -/
theorem forUpTo_comm {f : State → State} {body : Nat → State → State} (h : ∀ i s, body i (f s) = f (body i s))
    (n : Nat) (s : State) : forUpTo n body (f s) = f (forUpTo n body s) := by
  induction n with
  | zero => rfl
  | succ n ih => rw [forUpTo, ih, h]; rfl

theorem forPixels_comm {f : State → State} {body : Nat → Nat → State → State}
    (h : ∀ r c s, body r c (f s) = f (body r c s)) (hgt wid : Nat) (s : State) :
    forPixels hgt wid body (f s) = f (forPixels hgt wid body s) :=
  forUpTo_comm (fun r => forUpTo_comm (h r) wid) hgt s

/-- The loops of a command neither read nor write the RO registers. -/
theorem toycbcrArray_setResults (x y z u : Word) (o : Operands) (s : State) :
    toycbcrArray o (setResults x y z u s) = setResults x y z u (toycbcrArray o s) :=
  forPixels_comm (f := setResults x y z u) (body := toycbcrPixel o) (fun _ _ _ => rfl) _ _ s

theorem subsampleArray_setResults (x y z u : Word) (o : Operands) (da db : Nat) (s : State) :
    subsampleArray o da db (setResults x y z u s) = setResults x y z u (subsampleArray o da db s) :=
  forPixels_comm (f := setResults x y z u) (body := subsamplePixel o da db) (fun _ _ _ => rfl) _ _ s

/-- The end of a command writes all four (R50, R59, R95). -/
theorem cmdError_setResults (x y z u : Word) (e : CmdErr) (s : State) :
    cmdError e (setResults x y z u s) = cmdError e s := rfl

theorem cmdDone_setResults (x y z u : Word) (n h w : Nat) (s : State) :
    cmdDone n h w (setResults x y z u s) = cmdDone n h w s := rfl

theorem sampleOperands_setResults (x y z u : Word) (s : State) :
    sampleOperands (setResults x y z u s) = sampleOperands s := rfl

theorem setResults_cfg (x y z u : Word) (s : State) : (setResults x y z u s).cfg = s.cfg := rfl

/-- Settles O30: other result registers pass through the loops, and the end of the command overwrites them. -/
theorem commandsIgnoreTheResultRegisters : Obligations.CommandsIgnoreTheResultRegisters := by
  intro i s x y z u
  change exec i (setResults x y z u s) = exec i s
  cases i with
  | toycbcr =>
    simp only [exec, execToycbcr, sampleOperands_setResults, setResults_cfg, toycbcrArray_setResults,
      cmdError_setResults, cmdDone_setResults]
  | subsample a b =>
    simp only [exec, execSubsample, sampleOperands_setResults, setResults_cfg, subsampleArray_setResults,
      cmdError_setResults, cmdDone_setResults]

/-! ### The source -/

/-- `transformSamples` reads the pixel it writes (R58). -/
theorem transformSamples_congr (tie : RoundTie) {img img' : Samples} {r c : Nat}
    (h : ∀ k, k < 3 → img' r c k = img r c k) (k : Nat) :
    transformSamples tie img' r c k = transformSamples tie img r c k := by
  simp only [transformSamples, h 0 (by decide), h 1 (by decide), h 2 (by decide)]

/-- `selectSamples` reads rows and columns that exist (R74). -/
theorem selectSamples_congr {h w da db : Nat} {img img' : Samples} (hh : 0 < h) (hw : 0 < w) (hda : 0 < da)
    (heq : ∀ r c k, r < h → c < w → k < 3 → img' r c k = img r c k) {r c k : Nat} (hr : r < evenUp h)
    (hk : k < 3) : selectSamples h w da db img' r c k = selectSamples h w da db img r c k := by
  obtain ⟨hrow, hdiv⟩ := rowSel_lt (db := db) hda hh hr
  unfold selectSamples
  split
  · exact heq _ _ 0 (by omega) (by omega) (by decide)
  · exact heq _ _ k hrow (colSel_lt hw hdiv) hk

/-- An array holds what the samples are at its own positions. -/
theorem pixelsDone_congr {base h w : Nat} {f g : Samples} {s : State}
    (hfg : ∀ r c k, r < h → c < w → k < 3 → f r c k = g r c k) (x : Nat) :
    pixelsDone base w f (h * w) s x = pixelsDone base w g (h * w) s x := by
  unfold pixelsDone
  split
  next hin =>
    have hpix : (x - base) / 3 < h * w := by omega
    have hw : 0 < w := Nat.pos_of_mul_pos_left (Nat.zero_lt_of_lt hpix)
    exact hfg _ _ _ (Nat.div_lt_of_lt_mul (by rwa [Nat.mul_comm])) (Nat.mod_lt _ hw) (Nat.mod_lt _ (by decide))
  next => rfl

/-- To write the same samples again changes nothing. -/
theorem pixelsDone_again {base w n : Nat} {f : Samples} {s t : State}
    (ht : ∀ x, memRead t x = pixelsDone base w f n s x) (x : Nat) :
    pixelsDone base w f n t x = memRead t x := by
  rw [ht, pixelsDone, pixelsDone]
  split
  next => rfl
  next hout => rw [ht, pixelsDone, if_neg hout]

namespace Completed

variable {i : Instr} {s t : State}

/-- Every sample of the source is as it was. -/
theorem samplesAt_source (h : Completed i s t) {r c k : Nat} (hr : r < s.height.toNat) (hc : c < s.width.toNat)
    (hk : k < 3) :
    samplesAt t s.src.toNat s.width.toNat r c k = samplesAt s s.src.toNat s.width.toNat r c k := by
  have hlt := pixelAddr_lt (base := s.src.toNat) hr hc hk
  have hj := h.source_same (j := 3 * (r * s.width.toNat + c) + k) (by unfold pixelAddr at hlt; omega)
  simpa only [samplesAt, pixelAddr, Nat.add_assoc] using hj

/-- The samples of a command are the same over its own result (R77). -/
theorem destSamples_again (h : Completed i s t) {r c k : Nat} (hr : r < destHeight i s) (hc : c < destWidth i s)
    (hk : k < 3) : destSamples i t r c k = destSamples i s r c k := by
  obtain ⟨hsrc, -, hH, hW, hcfg, -⟩ := h.same
  cases i with
  | toycbcr =>
    simp only [destSamples, hsrc, hW, hcfg]
    exact transformSamples_congr _ (fun k hk => h.samplesAt_source hr hc hk) k
  | subsample a b =>
    obtain ⟨hh, hw, -⟩ := h.legal
    simp only [destSamples, hsrc, hH, hW]
    exact selectSamples_congr hh hw h.factor_pos (fun _ _ _ hr hc hk => h.samplesAt_source hr hc hk) hr hk

theorem destHeight_again (h : Completed i s t) : destHeight i t = destHeight i s := by
  obtain ⟨-, -, hH, -⟩ := h.same
  cases i <;> simp only [destHeight, hH]

theorem destWidth_again (h : Completed i s t) : destWidth i t = destWidth i s := by
  obtain ⟨-, -, -, hW, -⟩ := h.same
  cases i <;> simp only [destWidth, hW]

theorem reportedCount_again (h : Completed i s t) : reportedCount i t = reportedCount i s := by
  obtain ⟨-, -, hH, hW, -⟩ := h.same
  cases i <;> simp only [reportedCount, hH, hW]

/-- A completed command run again writes the bytes that stand there. -/
theorem memSame_again {u : State} (h : Completed i s t) (hu : Completed i t u) : MemSame t u := by
  intro x
  obtain ⟨-, hdst, -⟩ := h.same
  rw [hu.reads, hdst, h.destWidth_again, h.destHeight_again,
    pixelsDone_congr (fun _ _ _ hr hc hk => h.destSamples_again hr hc hk), pixelsDone_again h.reads]

end Completed

/-- Settles O31: the checks answer the same again; a failure repeats its code, and a completion writes the same samples
with the same count and shape. -/
theorem repeatedCommandGivesTheSameResult : Obligations.RepeatedCommandGivesTheSameResult := by
  intro i s t ht
  have hcheck : commandCheck i t = commandCheck i s := commandCheck_congr (exec_same ht)
  obtain ⟨e, hc, rfl⟩ | h := exec_spec ht
  · exact ⟨_, exec_of_check_some (hcheck.trans hc), fun _ => rfl, rfl, rfl, rfl, rfl⟩
  · obtain ⟨u, hu, hdone⟩ := completed_of_check_none (hcheck.trans h.check)
    refine ⟨u, hu, h.memSame_again hdone, hdone.status.trans h.status.symm, ?_, ?_, ?_⟩ <;>
      apply BitVec.eq_of_toNat_eq
    · rw [hdone.bytes, h.bytes, h.reportedCount_again]
    · rw [hdone.outH, h.outH, h.destHeight_again]
    · rw [hdone.outW, h.outW, h.destWidth_again]

end Sys2Proof.Machine

/-! PROOFS. Both commands on legal arrays (R50, R59): what the destination holds. -/

namespace Sys2Proof.Machine

open Sys2Proof

/-- Settles O32: on legal arrays the checks pass, and each sample of the destination is the transformed one. -/
theorem toycbcrTransformsEveryPixel : Obligations.ToycbcrTransformsEveryPixel := by
  rintro s _ _ rfl rfl hl
  obtain ⟨t, ht, h⟩ := completed_of_check_none (i := .toycbcr) ((arrayCheck_none_iff s).mpr hl)
  refine ⟨t, ht, h.status, BitVec.eq_of_toNat_eq h.bytes, BitVec.eq_of_toNat_eq h.outH,
    BitVec.eq_of_toNat_eq h.outW, fun r c hr hc => ?_, h.same_outside, h.same⟩
  have hpixel := fun k hk => h.memRead_pixel (k := k) hr hc hk
  simp only [destWidth] at hpixel
  rw [hpixel 0 (by decide), hpixel 1 (by decide), hpixel 2 (by decide)]
  rfl

/-- The divide factor that `SUBSAMPLE` uses is the document's (R62). -/
theorem legalFactor_of_divideFactor {a : Int} {d : Nat} (h : divideFactor a = some d) : legalFactor a = d := by
  rw [legalFactor, h]
  rfl

/-- The running count of the steps is the closed one (R68). -/
theorem accumulatedCount_eq_sampleCount (h w da db : Nat) : accumulatedCount h w da db = sampleCount h w da db := by
  unfold accumulatedCount retainedOfPlane sampleCount rowsOfA rowsOfB colsKept
  omega

/-- A replicated row of group A is an even source row, at the columns the closed form selects (R65, R69). -/
theorem replicateCols_groupA (w d : Nat) (p : Plane) (i c : Nat) :
    replicateCols w d (groupA d p) i c = p (2 * i) (colSel c w d) := by
  rw [replicateCols, groupA, colsKept, colSel, Nat.mul_comm d]

/-- A replicated row of group B is an odd source row, at the columns the closed form selects (R66, R69). -/
theorem replicateCols_groupB (w d : Nat) (p : Plane) (i c : Nat) :
    replicateCols w d (groupB d p) i c = p (2 * i + 1) (colSel c w d) := by
  rw [replicateCols, groupB, colsKept, colSel, Nat.mul_comm d]

/-- Steps 2a to 2d on a chroma plane select one source sample for each position (R74): with `db` = 0 the even row of
the pair, and else the row itself, but for the padded row, which takes the last row's. -/
theorem reconstructChroma_eq {h w da db r : Nat} (p : Plane) (hr : r < evenUp h) (c : Nat) :
    reconstructChroma h w da db p r c = p (rowSel r h da db).1 (colSel c w (rowSel r h da db).2) := by
  unfold evenUp at hr
  unfold reconstructChroma rowSel
  by_cases hdb : db = 0
  · simp only [if_pos hdb, duplicateRows, replicateCols_groupA]
  simp only [if_neg hdb, interleaveRows, replicateCols_groupA, replicateCols_groupB]
  by_cases heven : r % 2 = 0
  · have hrow : 2 * (r / 2) = r := by omega
    simp only [if_pos heven, if_pos (show r < h by omega), hrow]
  by_cases hlt : r < h
  · have hrow : 2 * ((r - 1) / 2) + 1 = r := by omega
    simp only [if_neg heven, if_pos hlt, hrow]
  · have hrow : 2 * ((r - 1) / 2) = h - 1 := by omega
    simp only [if_neg heven, if_neg hlt, hrow]

/-- The closed form is the document's reconstruction, at every position of the padded array (R74). -/
theorem selectSamples_eq_reconstruct {h w da db r : Nat} (img : Samples) (hr : r < evenUp h) (c k : Nat) :
    selectSamples h w da db img r c k = reconstruct h w da db img r c k := by
  unfold selectSamples reconstruct
  rw [reconstructChroma_eq _ hr]
  rfl

/-- Settles O39: on legal arrays with a legal pair the checks pass; the command stores the closed form, which is the
reconstruction. -/
theorem subsampleStoresTheReconstruction : Obligations.SubsampleStoresTheReconstruction := by
  rintro a b da db s _ _ rfl rfl ha hb hda hdb hl
  obtain ⟨t, ht, h⟩ :=
    completed_of_check_none ((commandCheck_subsample_none_iff (samplingCheck_of_legal ⟨ha, hb⟩)).mpr hl)
  refine ⟨t, ht, h.status, ?_, h.outH, h.outW, fun r c k hr hc hk => ?_, h.same_outside, h.same⟩
  · rw [h.bytes, reportedCount, legalFactor_of_divideFactor hda, legalFactor_of_divideFactor hdb,
      accumulatedCount_eq_sampleCount]
  · rw [← selectSamples_eq_reconstruct _ hr, ← legalFactor_of_divideFactor hda, ← legalFactor_of_divideFactor hdb]
    exact h.memRead_pixel hr hc hk

end Sys2Proof.Machine

/-! PROOFS. The errors of the array checks, in their order, and the lengths each command checks with (R26, R91 to R93,
R96). -/

namespace Sys2Proof.Machine

open Sys2Proof

/-- An empty source fails with `E_DIM`, before its addresses are looked at (R91). -/
theorem arrayCheck_of_empty (p : Params) {o : Operands} (slen dlen : Nat) (hempty : o.height = 0 ∨ o.width = 0) :
    arrayCheck p o slen dlen = some .dim := by
  rw [arrayCheck, if_pos hempty]

/-- Of a source that is not empty, a region that ends beyond `MEM` fails with `E_ADDR` (R92). -/
theorem arrayCheck_of_beyond {p : Params} {o : Operands} {slen dlen : Nat} (hdim : ¬(o.height = 0 ∨ o.width = 0))
    (hbeyond : p.memSize < o.src + slen ∨ p.memSize < o.dst + dlen) :
    arrayCheck p o slen dlen = some .addr := by
  rw [arrayCheck, if_neg hdim, if_pos hbeyond]

/-- Two regions inside `MEM` that share a byte fail with `E_OVERLAP` (R93). -/
theorem arrayCheck_of_shared {p : Params} {o : Operands} {slen dlen : Nat} (hdim : ¬(o.height = 0 ∨ o.width = 0))
    (hinside : ¬(p.memSize < o.src + slen ∨ p.memSize < o.dst + dlen))
    (hshared : o.src < o.dst + dlen ∧ o.dst < o.src + slen) :
    arrayCheck p o slen dlen = some .overlap := by
  rw [arrayCheck, if_neg hdim, if_neg hinside, if_pos hshared]

/-- The checks of `TOYCBCR` are those on its arrays, of one length (R26). -/
theorem commandCheck_toycbcr (s : State) :
    commandCheck .toycbcr s = arrayCheck s.cfg (sampleOperands s) (3 * s.height.toNat * s.width.toNat)
      (3 * s.height.toNat * s.width.toNat) := rfl

/-- With a legal pair the checks of `SUBSAMPLE` are those on its arrays, with the padded destination (R61, R63). -/
theorem commandCheck_subsample_of_legal {a b : Int} (h : legalSpec a b) (s : State) :
    commandCheck (.subsample a b) s = arrayCheck s.cfg (sampleOperands s) (3 * s.height.toNat * s.width.toNat)
      (3 * evenUp s.height.toNat * evenUp s.width.toNat) := by
  simp only [commandCheck, subsampleCheck, samplingCheck_of_legal h]
  rfl

/-- Settles O26: either command makes the array checks alone, with its own destination's length; each clause is the
check that then decides. -/
theorem arrayErrorsOfBothCommands : Obligations.ArrayErrorsOfBothCommands := by
  rintro i s _ _ _ _ dlen rfl rfl rfl rfl hi
  have hcheck : commandCheck i s =
      arrayCheck s.cfg (sampleOperands s) (3 * s.height.toNat * s.width.toNat) dlen := by
    obtain ⟨rfl, rfl⟩ | ⟨⟨a, b, ha, hb, rfl⟩, rfl⟩ := hi
    · exact commandCheck_toycbcr s
    · exact commandCheck_subsample_of_legal ⟨ha, hb⟩ s
  refine ⟨fun hempty => ?_, fun ⟨hdim, hbeyond⟩ => ?_, fun ⟨hdim, hinside, hshared⟩ => ?_⟩
  · exact exec_of_check_some (hcheck.trans (arrayCheck_of_empty _ _ _ hempty))
  · exact exec_of_check_some (hcheck.trans (arrayCheck_of_beyond hdim hbeyond))
  · exact exec_of_check_some (hcheck.trans (arrayCheck_of_shared hdim hinside hshared))

end Sys2Proof.Machine

/-! PROOFS. The command word: what the decoder answers, in the arithmetic of the word's value (R40 to R44), and the
encoder as its inverse (R42, R43, R47, R48). -/

namespace Sys2Proof

/-! ### Immediates and the encoder -/

/-- The range of an immediate (R40). -/
theorem immFits_iff (v : Int) : immFits v = true ↔ -128 ≤ v ∧ v ≤ 127 := by
  simp [immFits]

/-- Both operands of a `SUBSAMPLE` that has an encoding are in range (R47). -/
theorem wellFormed_subsample_iff (a b : Int) :
    (Instr.subsample a b).wellFormed = true ↔ (-128 ≤ a ∧ a ≤ 127) ∧ -128 ≤ b ∧ b ≤ 127 := by
  rw [Instr.wellFormed, Bool.and_eq_true, immFits_iff, immFits_iff]

/-- Of the integers −128 to 127, only `sext8 f` has the residue mod 256 that the field holds (R40). -/
theorem sext8_eq_iff (f : Byte) (v : Int) : sext8 f = v ↔ -128 ≤ v ∧ v ≤ 127 ∧ v % 256 = (f.toNat : Int) := by
  obtain ⟨hlow, hhigh, hres⟩ := sext8_spec f
  constructor
  · rintro rfl
    exact ⟨hlow, hhigh, hres⟩
  · omega

/-- The word of `SUBSAMPLE a, b`, by the formula of R43. -/
theorem encode_subsample_toNat (a b : Int) :
    ((encode (.subsample a b)).toNat : Int) = 2 + 256 * (a % 256) + 65536 * (b % 256) := by
  have ha := immField_toNat a
  have hb := immField_toNat b
  have hrsv : (0 : Byte).toNat = 0 := rfl
  have hopc : (0x02 : Byte).toNat = 2 := rfl
  rw [encode, Laws.packWord_toNat]
  omega

/-! ### The three outcomes of the decoder -/

/-- What the decoder answers: `TOYCBCR` on one word, `SUBSAMPLE` on the words with `OPC` = 2 and `RSV` = 0, and an
error on every other word (R42 to R44). -/
theorem decode_cases (w : Word) :
    (w.toNat = 1 ∧ decode w = .ok .toycbcr) ∨
    ((w.toNat % 256 = 2 ∧ w.toNat / 2 ^ 24 = 0) ∧
      decode w = .ok (.subsample (sext8 (aField w)) (sext8 (bField w)))) ∨
    ((w.toNat ≠ 1 ∧ ¬(w.toNat % 256 = 2 ∧ w.toNat / 2 ^ 24 = 0)) ∧ ∃ e, decode w = .error e) := by
  rw [decode_arith]
  split_ifs with hrsv htoy hopc1 hopc2
  · exact .inr (.inr ⟨by omega, _, rfl⟩)
  · exact .inl ⟨by omega, rfl⟩
  · exact .inr (.inr ⟨by omega, _, rfl⟩)
  · exact .inr (.inl ⟨by omega, rfl⟩)
  · exact .inr (.inr ⟨by omega, _, rfl⟩)

theorem decode_eq_toycbcr_iff (w : Word) : decode w = .ok .toycbcr ↔ w.toNat = 1 := by
  obtain ⟨hw, hd⟩ | ⟨hw, hd⟩ | ⟨⟨hne, -⟩, e, hd⟩ := decode_cases w <;> rw [hd]
  · exact iff_of_true rfl hw
  · exact iff_of_false nofun (by omega)
  · exact iff_of_false nofun hne

/-- The fields of the words of `SUBSAMPLE a, b` (R40, R43). -/
theorem decode_eq_subsample_iff (w : Word) (a b : Int) :
    decode w = .ok (.subsample a b) ↔
      (w.toNat % 256 = 2 ∧ w.toNat / 2 ^ 24 = 0) ∧ sext8 (aField w) = a ∧ sext8 (bField w) = b := by
  obtain ⟨hw, hd⟩ | ⟨hw, hd⟩ | ⟨⟨-, hne⟩, e, hd⟩ := decode_cases w <;> rw [hd]
  · exact iff_of_false nofun (by omega)
  · rw [Except.ok.injEq, Instr.subsample.injEq]
    exact (and_iff_right hw).symm
  · exact iff_of_false nofun fun ⟨h, _⟩ => hne h

/-- A word is reserved when it is the word of no command (R44). -/
theorem decode_eq_error_iff (w : Word) :
    (∃ e, decode w = .error e) ↔ w.toNat ≠ 1 ∧ ¬(w.toNat % 256 = 2 ∧ w.toNat / 2 ^ 24 = 0) := by
  obtain ⟨hw, hd⟩ | ⟨hw, hd⟩ | ⟨hw, hd⟩ := decode_cases w
  · exact iff_of_false (by simp [hd]) fun ⟨hne, _⟩ => hne hw
  · exact iff_of_false (by simp [hd]) fun ⟨_, hne⟩ => hne hw
  · exact iff_of_true hd hw

/-! ### The round trip -/

/-- The value of the word of `SUBSAMPLE a, b`, taken apart into its four fields (R39, R43). -/
theorem encode_subsample_eq_iff (a b : Int) (w : Word) :
    encode (.subsample a b) = w ↔ (w.toNat % 256 = 2 ∧ w.toNat / 2 ^ 24 = 0) ∧
      a % 256 = ((aField w).toNat : Int) ∧ b % 256 = ((bField w).toNat : Int) := by
  have hval := encode_subsample_toNat a b
  rw [aField_toNat, bField_toNat, ← BitVec.toNat_inj]
  omega

/-- Decoding and encoding are inverse to each other on the commands that have an encoding (R42, R43). -/
theorem decode_eq_ok_iff (w : Word) (i : Instr) : decode w = .ok i ↔ i.wellFormed = true ∧ encode i = w := by
  cases i with
  | toycbcr =>
    have hwf : Instr.toycbcr.wellFormed = true := rfl
    rw [decode_eq_toycbcr_iff, and_iff_right hwf, ← BitVec.toNat_inj]
    exact eq_comm
  | subsample a b =>
    rw [decode_eq_subsample_iff, wellFormed_subsample_iff, encode_subsample_eq_iff, sext8_eq_iff, sext8_eq_iff]
    tauto

/-- Settles O1. -/
theorem decodeOfEncodeIsTheCommand : Obligations.DecodeOfEncodeIsTheCommand := fun i hi =>
  (decode_eq_ok_iff (encode i) i).mpr ⟨hi, rfl⟩

/-- Settles O2. -/
theorem encodeOfDecodeIsTheWord : Obligations.EncodeOfDecodeIsTheWord := fun w i =>
  (decode_eq_ok_iff w i).mp

/-- Settles O3: the three outcomes, with the fields and R44's conditions in the arithmetic of the word's value. -/
theorem decoderFollowsTheOpcodeMap : Obligations.DecoderFollowsTheOpcodeMap := by
  intro w
  refine ⟨decode_eq_toycbcr_iff w, fun a b => ?_, ?_⟩
  · rw [decode_eq_subsample_iff, sext8_eq_iff, sext8_eq_iff, aField_toNat, bField_toNat]
    simp only [and_assoc, Nat.reducePow]
  · rw [decode_eq_error_iff]
    have hlt := w.isLt
    omega

/-- Settles O5. -/
theorem assemblerWordOfSubsample : Obligations.AssemblerWordOfSubsample := by
  intro a b
  refine ⟨?_, fun w hw => ?_⟩
  · rw [assemble, ite_eq_right_iff, wellFormed_subsample_iff, and_assoc]
    exact imp_congr_right fun _ => iff_of_false nofun id
  · obtain ⟨-, ⟨⟩⟩ := Option.ite_none_right_eq_some.mp hw
    exact encode_subsample_toNat a b

/-- Settles O4. -/
theorem tabulatedWordsDecode : Obligations.TabulatedWordsDecode := by
  refine ⟨?_, ?_, ?_, ?_, ?_, ?_, ?_, ?_⟩
  all_goals decide

end Sys2Proof

/-! PROOFS. Reserved words written to `CMD` (R94), and the lines of the pseudo-instructions (R48, R49). -/

namespace Sys2Proof

/-- The mnemonic of a pseudo-instruction (R48). -/
def Pseudo.mnemonic : Pseudo → List Char
  | .ss444 => "ss444".toList
  | .ss422 => "ss422".toList
  | .ss420 => "ss420".toList
  | .ss411 => "ss411".toList
  | .ss410 => "ss410".toList

end Sys2Proof

namespace Sys2Proof.Machine

open Sys2Proof

/-- Settles O23: R44's conditions make the word the word of no command. -/
theorem reservedWordFailsWithOpcodeError : Obligations.ReservedWordFailsWithOpcodeError := by
  intro s w rest hp hreserved
  obtain ⟨e, hd⟩ := (decode_eq_error_iff w).mpr (by omega)
  rw [step_writeCmd hp, writeCmd_of_error hd]
  rfl

theorem pseudoNamed_eq_some_iff (t : List Char) (p : Pseudo) : pseudoNamed t = some p ↔ t = p.mnemonic := by
  constructor
  · intro h
    unfold pseudoNamed at h
    split_ifs at h with h444 h422 h420 h411 h410 <;> cases h
    all_goals assumption
  · rintro rfl
    cases p <;> rfl

/-- The line of a pseudo-instruction is one write of the word of its command to `CMD` (R48, R49). -/
theorem scriptLine_mnemonic (p : Pseudo) : scriptLine p.mnemonic = some [commandEvent (encode p.expand)] := by
  cases p <;> decide

/-- Settles O6. -/
theorem pseudoInstructionWords : Obligations.PseudoInstructionWords := by
  refine ⟨scriptLine_mnemonic .ss444, scriptLine_mnemonic .ss422, scriptLine_mnemonic .ss420,
    scriptLine_mnemonic .ss411, scriptLine_mnemonic .ss410, fun t p h => ?_⟩
  have ht := (pseudoNamed_eq_some_iff t p).mp h
  cases p with
  | ss444 => exact .inl ht
  | ss422 => exact .inr (.inl ht)
  | ss420 => exact .inr (.inr (.inl ht))
  | ss411 => exact .inr (.inr (.inr (.inl ht)))
  | ss410 => exact .inr (.inr (.inr (.inr ht)))

end Sys2Proof.Machine

/-! PROOFS. The colour transform: the raw values of the three channels as rationals and their ranges (R51 to R55), what
`TOYCBCR` reports, and the independence of its pixels (R50, R57, R58). -/

namespace Sys2Proof.Machine

open Sys2Proof

/-! ### The raw values -/

/-- `rdiv` is within a half of n / d, over the rationals. -/
theorem abs_rdiv_sub_div_le (tie : RoundTie) (n : Int) {d : Int} (hd : 0 < d) :
    |(rdiv tie n d : ℚ) - (n : ℚ) / (d : ℚ)| ≤ 1 / 2 := by
  have hdq : (0 : ℚ) < d := by exact_mod_cast hd
  have hint : |2 * (n : ℚ) - 2 * d * rdiv tie n d| ≤ d := by exact_mod_cast abs_sub_rdiv_le tie n hd
  have hscale : (rdiv tie n d : ℚ) - n / d = -(2 * n - 2 * d * rdiv tie n d) / (2 * d) := by
    field_simp
    ring
  rw [hscale, abs_div, abs_neg, abs_of_pos (show (0 : ℚ) < 2 * d by linarith), div_le_iff₀ (by linarith)]
  linarith

/-- The literals of the luma row over the common denominator 1000 (R52). -/
theorem lumaNum_div (r g b : Nat) :
    (lumaNum r g b : ℚ) / (1000 : Int) = 0.299 * r + 0.587 * g + 0.144 * b := by
  unfold lumaNum
  push_cast
  ring

/-- The literals of the Cb row over 1000, the divisor 1.722 with them, and the offset 128 (R53). -/
theorem cbNum_div (r g b : Nat) :
    (cbNum r g b : ℚ) / (1722 : Int) = (-0.299 * r - 0.587 * g + 0.866 * b) / 1.722 + 128 := by
  unfold cbNum
  push_cast
  ring

/-- The literals of the Cr row over 1000, the divisor 1.402 with them, and the offset 128 (R54). -/
theorem crNum_div (r g b : Nat) :
    (crNum r g b : ℚ) / (1402 : Int) = (0.701 * r - 0.587 * g - 0.144 * b) / 1.402 + 128 := by
  unfold crNum
  push_cast
  ring

/-- Settles O35: each raw value is `rdiv` of its document formula's fraction, and each byte its clamp. -/
theorem yccRoundsThenClampsTheDocumentFormulas : Obligations.YccRoundsThenClampsTheDocumentFormulas := by
  rintro tie r g b _ _ _ rfl rfl rfl
  refine ⟨?_, ?_, ?_, clampByte_toNat _, clampByte_toNat _, clampByte_toNat _⟩
  · rw [← lumaNum_div]
    exact abs_rdiv_sub_div_le tie _ (by decide)
  · rw [← cbNum_div]
    exact abs_rdiv_sub_div_le tie _ (by decide)
  · rw [← crNum_div]
    exact abs_rdiv_sub_div_le tie _ (by decide)

/-- Rounding keeps the order: answers in the other order would be at least 1 apart, and each is within a half. -/
theorem rdiv_mono (tie : RoundTie) {n m d : Int} (hd : 0 < d) (h : n ≤ m) : rdiv tie n d ≤ rdiv tie m d := by
  obtain rfl | hlt := h.eq_or_lt
  · rfl
  obtain ⟨hn, -⟩ := abs_le.mp (abs_sub_rdiv_le tie n hd)
  obtain ⟨-, hm⟩ := abs_le.mp (abs_sub_rdiv_le tie m hd)
  by_contra! hgt
  have hgap := mul_le_mul_of_nonneg_left (Int.add_one_le_of_lt hgt) hd.le
  linarith

/-- Yraw is least at black and greatest at white: all three weights are positive (R52). -/
theorem lumaRaw_between_extremes (tie : RoundTie) (r g b : Byte) :
    lumaRaw tie 0 0 0 ≤ lumaRaw tie r.toNat g.toNat b.toNat ∧
      lumaRaw tie r.toNat g.toNat b.toNat ≤ lumaRaw tie 255 255 255 :=
  ⟨rdiv_mono tie (by decide) (by unfold lumaNum; omega), rdiv_mono tie (by decide) (by unfold lumaNum; omega)⟩

/-- Cbraw is least at yellow and greatest at blue, the one channel of positive weight (R53). -/
theorem cbRaw_between_extremes (tie : RoundTie) (r g b : Byte) :
    cbRaw tie 255 255 0 ≤ cbRaw tie r.toNat g.toNat b.toNat ∧
      cbRaw tie r.toNat g.toNat b.toNat ≤ cbRaw tie 0 0 255 :=
  ⟨rdiv_mono tie (by decide) (by unfold cbNum; omega), rdiv_mono tie (by decide) (by unfold cbNum; omega)⟩

/-- Crraw is least at cyan and greatest at red, the one channel of positive weight (R54). -/
theorem crRaw_between_extremes (tie : RoundTie) (r g b : Byte) :
    crRaw tie 0 255 255 ≤ crRaw tie r.toNat g.toNat b.toNat ∧
      crRaw tie r.toNat g.toNat b.toNat ≤ crRaw tie 255 0 0 :=
  ⟨rdiv_mono tie (by decide) (by unfold crNum; omega), rdiv_mono tie (by decide) (by unfold crNum; omega)⟩

/-- The raw values of the extreme pixels. Red's Crraw is an exact half, 255.5; its floor is odd,
so both tie rules round it up. -/
theorem raw_extremes (tie : RoundTie) :
    lumaRaw tie 0 0 0 = 0 ∧ lumaRaw tie 255 255 255 = 263 ∧ cbRaw tie 255 255 0 = -3 ∧ cbRaw tie 0 0 255 = 256 ∧
      crRaw tie 0 255 255 = -5 ∧ crRaw tie 255 0 0 = 256 := by
  cases tie <;> decide

/-- Settles O36: the extreme pixels bound all others, and evaluate to the six bounds. -/
theorem yccRawRanges : Obligations.YccRawRanges := by
  refine ⟨fun tie r g b => ?_, raw_extremes .halfUp⟩
  obtain ⟨hblack, hwhite, hyellow, hblue, hcyan, hred⟩ := raw_extremes tie
  have hY := lumaRaw_between_extremes tie r g b
  have hCb := cbRaw_between_extremes tie r g b
  have hCr := crRaw_between_extremes tie r g b
  rw [hblack, hwhite] at hY
  rw [hyellow, hblue] at hCb
  rw [hcyan, hred] at hCr
  exact ⟨hY, hCb, hCr⟩

/-! ### The status and the pixels of `TOYCBCR` -/

/-- The checks of a command decide its status (R12, R96). -/
theorem exec_status {i : Instr} {s t : State} (h : exec i s = .next t) :
    t.status = (commandCheck i s).elim 0 errStatus := by
  obtain ⟨e, hc, rfl⟩ | hdone := exec_spec h
  · rw [hc]
    rfl
  · rw [hdone.check]
    exact hdone.status

/-- A command that reports 0 has completed (R12). -/
theorem completed_of_status_zero {i : Instr} {s t : State} (h : exec i s = .next t) (h0 : t.status = 0) :
    Completed i s t := by
  obtain ⟨e, -, rfl⟩ | hdone := exec_spec h
  · exact absurd h0 (errStatus_ne_zero e)
  · exact hdone

/-- Settles O27: the checks of `TOYCBCR` are those on its arrays, whose codes are 4, 5 and 6. -/
theorem toycbcrNeverReportsSampling : Obligations.ToycbcrNeverReportsSampling := by
  intro s t ht
  rw [exec_status ht]
  cases hc : commandCheck .toycbcr s with
  | none => exact .inl rfl
  | some e =>
    obtain rfl | rfl | rfl := arrayCheck_some ((commandCheck_toycbcr s).symm.trans hc)
    · exact .inr (.inl rfl)
    · exact .inr (.inr (.inl rfl))
    · exact .inr (.inr (.inr rfl))

/-- The checks read the sampled operands and the parameters alone (R96), whatever the other fields hold. -/
theorem commandCheck_of_operands {i : Instr} {s t : State} (ho : sampleOperands t = sampleOperands s)
    (hcfg : t.cfg = s.cfg) : commandCheck i t = commandCheck i s := by
  cases i <;> simp only [commandCheck, ho, hcfg]

/-- Settles O33: the two runs make the same checks, and on success each stores the transform of its own pixel (r, c),
which is the same in both. -/
theorem toycbcrPixelsAreIndependent : Obligations.ToycbcrPixelsAreIndependent := by
  intro s s' t t' r c hsrc hdst hH hW hcfg hr hc hpixel ht ht'
  have hoperands : sampleOperands s' = sampleOperands s := by simp only [sampleOperands, hsrc, hdst, hH, hW]
  have hstatus : t'.status = t.status := by
    rw [exec_status ht', exec_status ht, commandCheck_of_operands hoperands hcfg]
  refine ⟨hstatus, fun h0 k hk => ?_⟩
  have h := completed_of_status_zero ht h0
  have h' := completed_of_status_zero ht' (hstatus.trans h0)
  calc memRead t' (pixelAddr s.dst.toNat s.width.toNat r c k)
      = destSamples .toycbcr s' r c k := by
        rw [← hH] at hr
        rw [← hW] at hc
        rw [← hdst, ← hW]
        exact h'.memRead_pixel hr hc hk
    _ = destSamples .toycbcr s r c k := by
        simp only [destSamples, hsrc, hW, hcfg]
        exact transformSamples_congr _ hpixel k
    _ = memRead t (pixelAddr s.dst.toNat s.width.toNat r c k) := (h.memRead_pixel hr hc hk).symm

end Sys2Proof.Machine

/-! PROOFS. The parameters of `SUBSAMPLE` (R60 to R62), and its byte count: its formula, its order, and the samples it
counts (R68, R76, R78). -/

namespace Sys2Proof.Machine

open Sys2Proof

/-! ### The sampling parameters -/

/-- The table of R62. -/
theorem divideFactor_eq_some_iff (v : Int) (d : Nat) :
    divideFactor v = some d ↔ (v = 4 ∧ d = 1) ∨ (v = 2 ∧ d = 2) ∨ (v = 1 ∧ d = 4) ∨ (v = 0 ∧ d = 0) := by
  unfold divideFactor
  split_ifs <;> simp <;> omega

/-- Settles O38: R62's table, read both ways. -/
theorem divideFactorsOfTheLegalValues : Obligations.DivideFactorsOfTheLegalValues := by
  refine ⟨rfl, rfl, rfl, rfl, ?_, fun v hv => Option.eq_none_iff_forall_ne_some.mpr fun d hd => ?_⟩
  · rintro v (rfl | rfl | rfl)
    exacts [⟨4, rfl, rfl⟩, ⟨2, rfl, rfl⟩, ⟨1, rfl, rfl⟩]
  · have := (divideFactor_eq_some_iff v d).mp hd
    omega

/-- Settles O25: validation lets through only the legal set, and all of it. -/
theorem samplingChecksPassExactlyTheLegalSet : Obligations.SamplingChecksPassExactlyTheLegalSet := fun _ _ =>
  ⟨samplingCheck_legal, samplingCheck_of_legal⟩

/-! ### The byte count -/

theorem ceilDiv_one (x : Nat) : ceilDiv x 1 = x := by
  simp [ceilDiv]

/-- The even and the odd rows are all the rows (R65, R66). -/
theorem ceilDiv_two_add_half (h : Nat) : ceilDiv h 2 + h / 2 = h := by
  unfold ceilDiv
  omega

/-- A larger factor retains no more columns. -/
theorem ceilDiv_anti (x : Nat) {d d' : Nat} (hd : 0 < d) (hle : d ≤ d') : ceilDiv x d' ≤ ceilDiv x d := by
  have hcover : x ≤ d * ceilDiv x d := (ceilDiv_le_iff_le_mul hd).mp le_rfl
  exact (ceilDiv_le_iff_le_mul (hd.trans_le hle)).mpr (hcover.trans (Nat.mul_le_mul_right _ hle))

/-- The count by planes: luma in full, and what decimation retains of each chroma plane (R68). -/
theorem sampleCount_eq (h w da db : Nat) : sampleCount h w da db = h * w + 2 * retainedOfPlane h w da db := rfl

/-- With one factor for all rows every row retains the same columns. -/
theorem retainedOfPlane_same (h w : Nat) {d : Nat} (hd : d ≠ 0) : retainedOfPlane h w d d = h * ceilDiv w d := by
  rw [retainedOfPlane, if_neg hd, rowsOfA, rowsOfB, colsKept, ← Nat.add_mul, ceilDiv_two_add_half]

/-- 4:4:4 retains every sample (R75). -/
theorem sampleCount_full (h w : Nat) : sampleCount h w 1 1 = 3 * h * w := by
  rw [sampleCount_eq, retainedOfPlane_same h w one_ne_zero, ceilDiv_one]
  ring

/-- Smaller factors retain at least as many samples; a second row of its own at least as many as none (R76). -/
theorem sampleCount_anti (h w : Nat) {da db da' db' : Nat} (hda' : 0 < da') (hda : da' ≤ da)
    (hdb : db = 0 ∨ (0 < db' ∧ db' ≤ db)) : sampleCount h w da db ≤ sampleCount h w da' db' := by
  have hA : rowsOfA h * colsKept w da ≤ rowsOfA h * colsKept w da' := Nat.mul_le_mul_left _ (ceilDiv_anti w hda' hda)
  have hB : (if db = 0 then 0 else rowsOfB h * colsKept w db) ≤
      if db' = 0 then 0 else rowsOfB h * colsKept w db' := by
    obtain rfl | ⟨hpos, hle⟩ := hdb
    · exact Nat.zero_le _
    · rw [if_neg (by omega), if_neg (by omega)]
      exact Nat.mul_le_mul_left _ (ceilDiv_anti w hpos hle)
  simp only [sampleCount_eq, retainedOfPlane]
  omega

/-- Settles O46: the order is that of the factors, the bounds are the counts of the least and the greatest pair, and
(2, 2) drops a column of each row once there are two. -/
theorem byteCountOrder : Obligations.ByteCountOrder := by
  intro H W hH hW
  have hhalf : sampleCount H W 2 2 = H * W + 2 * (H * ceilDiv W 2) := by
    rw [sampleCount_eq, retainedOfPlane_same H W two_ne_zero]
  have hfull : sampleCount H W 1 1 = H * W + 2 * (H * W) := by
    rw [sampleCount_full]
    ring
  have hstrict : H * ceilDiv W 2 < H * W ↔ 2 ≤ W := by
    rw [Nat.mul_lt_mul_left hH, ceilDiv]
    omega
  refine ⟨?_, ?_, ?_, ?_, ?_, ?_⟩
  · intro a b a' b' da db da' db' _ _ _ _ hda hdb hda' hdb' haa hbb
    rw [divideFactor_eq_some_iff] at hda hdb hda' hdb'
    exact sampleCount_anti H W (by omega) (by omega) (by omega)
  · exact sampleCount_anti H W (by decide) (by decide) (.inl rfl)
  · exact sampleCount_anti H W (by decide) (by decide) (.inl rfl)
  · omega
  · rintro rfl
    exact hhalf.trans hfull.symm
  · intro a b da db ha hb hda hdb
    rw [divideFactor_eq_some_iff] at hda hdb
    constructor
    · calc H * W + 2 * ceilDiv H 2 * ceilDiv W 4
          = sampleCount H W 4 0 := by rw [Nat.mul_assoc]; rfl
        _ ≤ sampleCount H W da db := sampleCount_anti H W (by omega) (by omega) (.inl rfl)
    · rw [Nat.mul_assoc]
      exact sampleCount_le (by omega)

/-- On a width that the factors divide, a row of parameter `v` retains `v` columns of every 4 (R62). -/
theorem four_mul_colsKept {w d : Nat} {v : Int} (hw : w % 4 = 0) (hd : divideFactor v = some d) :
    4 * ((if d = 0 then 0 else colsKept w d : Nat) : Int) = w * v := by
  unfold colsKept ceilDiv
  obtain ⟨rfl, rfl⟩ | ⟨rfl, rfl⟩ | ⟨rfl, rfl⟩ | ⟨rfl, rfl⟩ := (divideFactor_eq_some_iff v d).mp hd
  all_goals
    simp only [OfNat.ofNat_ne_zero, one_ne_zero, if_false, if_true]
    omega

/-- Settles O47: for aligned sizes each of the H/2 rows of either group retains the columns of `four_mul_colsKept`. -/
theorem byteCountFormula : Obligations.ByteCountFormula := by
  intro H W a b da db ha _ hda hdb
  refine ⟨accumulatedCount_eq_sampleCount H W da db, sampleCount_full H W, fun hH hW => ?_⟩
  obtain ⟨n, rfl⟩ : ∃ n, H = 2 * n := ⟨H / 2, by omega⟩
  have hA := four_mul_colsKept hW hda
  have hB := four_mul_colsKept hW hdb
  have hpos : da ≠ 0 := by
    rw [divideFactor_eq_some_iff] at hda
    omega
  have hrowsA : rowsOfA (2 * n) = n := by
    unfold rowsOfA ceilDiv
    omega
  have hrowsB : rowsOfB (2 * n) = n := by
    unfold rowsOfB
    omega
  rw [if_neg hpos] at hA
  rw [sampleCount_eq, retainedOfPlane, hrowsA, hrowsB, ← Nat.mul_zero n, ← mul_ite]
  push_cast at hB ⊢
  linear_combination 2 * (n : Int) * hA + 2 * (n : Int) * hB

/-- A row of factor `d` retains every `d`-th column, from column 0 on (R65, R66). -/
theorem countP_range_mod (w : Nat) {d : Nat} (hd : 0 < d) :
    (List.range w).countP (fun c => decide (c % d = 0)) = ceilDiv w d := by
  induction w with
  | zero => simp [ceilDiv, Nat.div_eq_of_lt, hd]
  | succ w ih =>
    have hnext : w + 1 + d - 1 = w + d - 1 + 1 := by omega
    have hlast : d ∣ w + d - 1 + 1 ↔ w % d = 0 := by
      rw [Nat.sub_add_cancel (by omega), Nat.dvd_add_self_right, Nat.dvd_iff_mod_eq_zero]
    rw [List.range_succ, List.countP_append, ih, List.countP_singleton, ceilDiv, ceilDiv, hnext, Nat.succ_div]
    simp only [hlast, decide_eq_true_eq]

/-- A source row retains the columns of its group (R65 to R67). -/
theorem countP_retainedChroma {da : Nat} (db r w : Nat) (hda : 0 < da) :
    (List.range w).countP (fun c => retainedChroma da db r c) =
      if r % 2 = 0 then colsKept w da else if db = 0 then 0 else colsKept w db := by
  unfold retainedChroma
  split_ifs with heven hdb
  · exact countP_range_mod w hda
  · simp [hdb]
  · simpa [hdb, colsKept] using countP_range_mod w (Nat.pos_of_ne_zero hdb)

/-- Rows with one value for the even and one for the odd rows, added up. -/
theorem sum_range_parity (h x y : Nat) :
    ((List.range h).map fun r => if r % 2 = 0 then x else y).sum = rowsOfA h * x + rowsOfB h * y := by
  induction h with
  | zero => simp [rowsOfA, rowsOfB, ceilDiv]
  | succ h ih =>
    rw [List.range_succ, List.map_append, List.sum_append, ih]
    by_cases heven : h % 2 = 0
    · have hA : rowsOfA (h + 1) = rowsOfA h + 1 := by unfold rowsOfA ceilDiv; omega
      have hB : rowsOfB (h + 1) = rowsOfB h := by unfold rowsOfB; omega
      rw [List.map_singleton, List.sum_singleton, if_pos heven, hA, hB]
      ring
    · have hA : rowsOfA (h + 1) = rowsOfA h := by unfold rowsOfA ceilDiv; omega
      have hB : rowsOfB (h + 1) = rowsOfB h + 1 := by unfold rowsOfB; omega
      rw [List.map_singleton, List.sum_singleton, if_neg heven, hA, hB]
      ring

/-- The positions that `retainedChroma` picks out of a plane are as many as decimation retains (R78 (ii)). -/
theorem sum_countP_retainedChroma {da : Nat} (db h w : Nat) (hda : 0 < da) :
    ((List.range h).map fun r => (List.range w).countP fun c => retainedChroma da db r c).sum =
      retainedOfPlane h w da db := by
  simp only [countP_retainedChroma db _ w hda, sum_range_parity, retainedOfPlane, mul_ite, mul_zero]

/-- Settles O48: the reported count is luma and twice a plane's retained samples, counted row by row. -/
theorem byteCountIsTheNumberRetained : Obligations.ByteCountIsTheNumberRetained := by
  rintro a b da db s t _ _ rfl rfl hda hdb ht h0
  have h := completed_of_status_zero ht h0
  rw [h.bytes, reportedCount, sampleCount_eq, ← sum_countP_retainedChroma _ _ _ h.factor_pos,
    legalFactor_of_divideFactor hda, legalFactor_of_divideFactor hdb]

end Sys2Proof.Machine

/-! PROOFS. The closed form of `SUBSAMPLE` (R74): what a position selects, and what the output samples of a successful
command have in common (R75, R78). -/

namespace Sys2Proof.Machine

open Sys2Proof

/-! ### The selection -/

/-- The factor of a row that the source has (R74). -/
theorem rowSel_factor {r h : Nat} (da db : Nat) (hr : r < h) :
    (rowSel r h da db).2 = if r % 2 = 0 ∨ db = 0 then da else db := by
  by_cases hdb : db = 0
  · simp [rowSel, hdb]
  · simp [rowSel, hdb, hr]

/-- The factor of a selected row tells its parity: `da` on even rows, `db` on odd ones (R74). -/
theorem rowSel_parity {r h : Nat} (da db : Nat) (hr : r < evenUp h) :
    ((rowSel r h da db).1 % 2 = 0 ∧ (rowSel r h da db).2 = da) ∨
      ((rowSel r h da db).1 % 2 = 1 ∧ (rowSel r h da db).2 = db) := by
  unfold evenUp at hr
  unfold rowSel
  split_ifs <;> dsimp only <;> omega

/-- The padded row selects what the row above it selects (R70, R71). -/
theorem rowSel_padded {h : Nat} (da db : Nat) (hodd : h % 2 = 1) :
    rowSel h h da db = rowSel (h - 1) h da db := by
  have hpair : h / 2 = (h - 1) / 2 := by omega
  unfold rowSel
  rw [hpair, if_neg (lt_irrefl h), if_pos (show h - 1 < h by omega), if_pos (show (h - 1) % 2 = 0 by omega)]

/-- Both rows of a pair select the same with `db` = 0 (R71). -/
theorem rowSel_pair (i h da : Nat) : rowSel (2 * i + 1) h da 0 = rowSel (2 * i) h da 0 := by
  have hpair : (2 * i + 1) / 2 = 2 * i / 2 := by omega
  simp only [rowSel, if_pos, hpair]

/-- The `min` of R69 changes a column in one case: the padded column of factor 1. -/
theorem colSel_eq {c w d : Nat} (hd : d = 1 ∨ d = 2 ∨ d = 4) (hc : c < evenUp w) :
    colSel c w d = if d = 1 ∧ c = w then w - 1 else d * (c / d) := by
  unfold evenUp at hc
  unfold colSel ceilDiv
  obtain rfl | rfl | rfl := hd <;> split_ifs <;> omega

/-- The padded column selects what the column before it selects (R69). -/
theorem colSel_padded {w d : Nat} (hd : d = 1 ∨ d = 2 ∨ d = 4) (hodd : w % 2 = 1) :
    colSel w w d = colSel (w - 1) w d := by
  rw [colSel_eq hd (by unfold evenUp; omega), colSel_eq hd (by unfold evenUp; omega)]
  obtain rfl | rfl | rfl := hd <;> split_ifs <;> omega

/-- With factor 1 every column of the source is its own, and the last one is repeated (R75). -/
theorem colSel_one (c w : Nat) : colSel c w 1 = min c (w - 1) := by
  simp [colSel, ceilDiv]

/-- The selected position is one that decimation retains (R65, R66, R74). -/
theorem retainedChroma_selected {r h da db : Nat} (c w : Nat) (hda : 0 < da) (hh : 0 < h) (hr : r < evenUp h) :
    retainedChroma da db (rowSel r h da db).1 (colSel c w (rowSel r h da db).2) = true := by
  obtain ⟨-, hpos⟩ := rowSel_lt (db := db) hda hh hr
  obtain ⟨heven, hfactor⟩ | ⟨hodd, hfactor⟩ := rowSel_parity da db hr
  · simp [retainedChroma, colSel, heven, hfactor]
  · simp [retainedChroma, colSel, hodd, hfactor, (hfactor ▸ hpos).ne']

/-- Settles O40: the reconstruction selects as the closed form does, and the selections are those of `rowSel_parity` and
`colSel_eq`. -/
theorem closedFormIsTheReconstruction : Obligations.ClosedFormIsTheReconstruction := by
  intro H W da db img r c k hH hW hda _ hr hc _
  obtain ⟨hrow, hpos⟩ := rowSel_lt (da := da) (db := db) (by omega) hH hr
  have hcol := colSel_lt (c := c) hW hpos
  have hparity := rowSel_parity da db hr
  exact ⟨selectSamples_eq_reconstruct img hr c k, by omega, by omega, by omega, by omega,
    fun d hd => colSel_eq hd hc⟩

/-! ### The selected samples -/

/-- On chroma the closed form is decided by the two selections. -/
theorem selectSamples_chroma {k : Nat} (hk : k ≠ 0) (h w da db : Nat) (img : Samples) (r c : Nat) :
    selectSamples h w da db img r c k = img (rowSel r h da db).1 (colSel c w (rowSel r h da db).2) k :=
  if_neg hk

/-- On luma it is the position itself, or the nearest one that the source has (R72). -/
theorem selectSamples_luma (h w da db : Nat) (img : Samples) (r c : Nat) :
    selectSamples h w da db img r c 0 = img (min r (h - 1)) (min c (w - 1)) 0 := rfl

/-- With both factors 1 every channel is selected as luma is (R75). -/
theorem selectSamples_full {h r : Nat} (w : Nat) (img : Samples) (hr : r < evenUp h) (c k : Nat) :
    selectSamples h w 1 1 img r c k = img (min r (h - 1)) (min c (w - 1)) k := by
  unfold evenUp at hr
  have hrow : rowSel r h 1 1 = (min r (h - 1), 1) := by
    simp only [rowSel, one_ne_zero, if_false, ite_self]
    split_ifs <;> congr 1 <;> omega
  by_cases hk : k = 0
  · rw [hk, selectSamples_luma]
  · rw [selectSamples_chroma hk, hrow, colSel_one]

/-- The padded row repeats the row above it (R70 to R72). -/
theorem selectSamples_padded_row {h : Nat} (hodd : h % 2 = 1) (w da db : Nat) (img : Samples) (c k : Nat) :
    selectSamples h w da db img h c k = selectSamples h w da db img (h - 1) c k := by
  have hmin : min h (h - 1) = min (h - 1) (h - 1) := by omega
  simp only [selectSamples, rowSel_padded da db hodd, hmin]

/-- The padded column repeats the column before it, whatever the factor of the row (R69, R72). -/
theorem selectSamples_padded_col {h w da db r : Nat} (hodd : w % 2 = 1) (img : Samples)
    (hfactor : (rowSel r h da db).2 = 1 ∨ (rowSel r h da db).2 = 2 ∨ (rowSel r h da db).2 = 4) (k : Nat) :
    selectSamples h w da db img r w k = selectSamples h w da db img r (w - 1) k := by
  have hmin : min w (w - 1) = min (w - 1) (w - 1) := by omega
  simp only [selectSamples, colSel_padded hfactor hodd, hmin]

/-- Columns of one block select the same chroma (R69). -/
theorem selectSamples_block {h w da db r c c' k : Nat} (img : Samples) (hk : k ≠ 0)
    (hblock : c / (rowSel r h da db).2 = c' / (rowSel r h da db).2) :
    selectSamples h w da db img r c k = selectSamples h w da db img r c' k := by
  rw [selectSamples_chroma hk, selectSamples_chroma hk, colSel, colSel, hblock]

/-- A channel of the selection reads only what decimation retains of that channel, or its luma (R78 (iii), (iv)). -/
theorem selectSamples_congr_retained {h w da db r k : Nat} {img img' : Samples} (hh : 0 < h) (hw : 0 < w)
    (hda : 0 < da) (hr : r < evenUp h) (c : Nat)
    (heq : ∀ r c, r < h → c < w → (k = 0 ∨ retainedChroma da db r c = true) → img' r c k = img r c k) :
    selectSamples h w da db img' r c k = selectSamples h w da db img r c k := by
  obtain ⟨hrow, hpos⟩ := rowSel_lt (db := db) hda hh hr
  by_cases hk : k = 0
  · subst hk
    exact heq _ _ (by omega) (by omega) (.inl rfl)
  · rw [selectSamples_chroma hk, selectSamples_chroma hk]
    exact heq _ _ hrow (colSel_lt hw hpos) (.inr (retainedChroma_selected c w hda hh hr))

/-! ### The output of a successful `SUBSAMPLE` -/

/-- The pixel and channel of byte `j` of an array (R27). -/
theorem pixelAddr_of_offset (base w j : Nat) : pixelAddr base w (j / 3 / w) (j / 3 % w) (j % 3) = base + j := by
  rw [pixelAddr, Nat.div_add_mod']
  omega

/-- The result registers are decided by the operands and the parameters, whatever the source holds (R13, R14, R96). -/
theorem exec_results_congr {i : Instr} {s s' t t' : State} (hoperands : sampleOperands s' = sampleOperands s)
    (hcfg : s'.cfg = s.cfg) (ht : exec i s = .next t) (ht' : exec i s' = .next t') :
    t'.status = t.status ∧ t'.bytes = t.bytes ∧ t'.outH = t.outH ∧ t'.outW = t.outW := by
  have hcheck := commandCheck_of_operands (i := i) hoperands hcfg
  have hstatus : t'.status = t.status := by rw [exec_status ht', exec_status ht, hcheck]
  obtain ⟨e, hc, rfl⟩ | h := exec_spec ht
  · cases (exec_of_check_some (hcheck.trans hc)).symm.trans ht'
    exact ⟨rfl, rfl, rfl, rfl⟩
  · have h' := completed_of_status_zero ht' (hstatus.trans h.status)
    have hH : s'.height.toNat = s.height.toNat := congrArg Operands.height hoperands
    have hW : s'.width.toNat = s.width.toNat := congrArg Operands.width hoperands
    refine ⟨hstatus, ?_, ?_, ?_⟩ <;> apply BitVec.eq_of_toNat_eq
    · rw [h'.bytes, h.bytes]
      cases i <;> simp only [reportedCount, hH, hW]
    · rw [h'.outH, h.outH]
      cases i <;> simp only [destHeight, hH]
    · rw [h'.outW, h.outW]
      cases i <;> simp only [destWidth, hW]

namespace Completed

variable {a b : Int} {s t : State}

/-- Sample `k` of an output pixel, at the padded shape (R63, R73). -/
theorem memRead_padded (h : Completed (.subsample a b) s t) {r c k : Nat} (hr : r < evenUp s.height.toNat)
    (hc : c < evenUp s.width.toNat) (hk : k < 3) :
    memRead t (pixelAddr s.dst.toNat (evenUp s.width.toNat) r c k) =
      selectSamples s.height.toNat s.width.toNat (legalFactor a) (legalFactor b)
        (samplesAt s s.src.toNat s.width.toNat) r c k :=
  h.memRead_pixel hr hc hk

/-- The same at the reported shape (R14). -/
theorem memRead_reported (h : Completed (.subsample a b) s t) {r c k : Nat} (hr : r < t.outH.toNat)
    (hc : c < t.outW.toNat) (hk : k < 3) :
    memRead t (pixelAddr s.dst.toNat t.outW.toNat r c k) =
      selectSamples s.height.toNat s.width.toNat (legalFactor a) (legalFactor b)
        (samplesAt s s.src.toNat s.width.toNat) r c k := by
  rw [h.outH] at hr
  rw [h.outW] at hc ⊢
  exact h.memRead_padded hr hc hk

/-- Byte `j` of an output array, in the order of R27. -/
theorem memRead_dest (h : Completed (.subsample a b) s t) {j : Nat}
    (hj : j < 3 * (evenUp s.height.toNat * evenUp s.width.toNat)) :
    memRead t (s.dst.toNat + j) =
      selectSamples s.height.toNat s.width.toNat (legalFactor a) (legalFactor b)
        (samplesAt s s.src.toNat s.width.toNat) (j / 3 / evenUp s.width.toNat) (j / 3 % evenUp s.width.toNat)
        (j % 3) := by
  rw [h.reads, pixelsDone, if_pos ⟨by omega, Nat.add_lt_add_left hj _⟩, Nat.add_sub_cancel_left]
  rfl

/-- The factor of every output row is one that R74 allows a column to be selected with. -/
theorem rowSel_factor_legal (h : Completed (.subsample a b) s t) {r : Nat} (hr : r < evenUp s.height.toNat) :
    (rowSel r s.height.toNat (legalFactor a) (legalFactor b)).2 = 1 ∨
      (rowSel r s.height.toNat (legalFactor a) (legalFactor b)).2 = 2 ∨
      (rowSel r s.height.toNat (legalFactor a) (legalFactor b)).2 = 4 := by
  obtain ⟨hH, -⟩ := h.legal
  obtain ⟨-, hpos⟩ := rowSel_lt (db := legalFactor b) h.factor_pos hH hr
  have hlegal := legalFactor_of_legal h.pair_legal
  have hparity := rowSel_parity (legalFactor a) (legalFactor b) hr
  omega

end Completed

/-- Settles O41: the result registers do not depend on the source, and on success each output sample is the selected
one, which both sources hold. -/
theorem subsampleIgnoresDiscardedSamples : Obligations.SubsampleIgnoresDiscardedSamples := by
  intro a b da db s s' t t' k _ _ hda hdb hsrc hdst hH hW hcfg hk hretained ht ht'
  have hoperands : sampleOperands s' = sampleOperands s := by simp only [sampleOperands, hsrc, hdst, hH, hW]
  obtain ⟨hstatus, hbytes, houtH, houtW⟩ := exec_results_congr hoperands hcfg ht ht'
  refine ⟨hstatus, hbytes, houtH, houtW, fun h0 r c hr hc => ?_⟩
  have h := completed_of_status_zero ht h0
  have h' := completed_of_status_zero ht' (hstatus.trans h0)
  obtain ⟨hheight, hwidth, -⟩ := h.legal
  have hrow : r < evenUp s.height.toNat := hr.trans_eq h.outH
  rw [← legalFactor_of_divideFactor hda, ← legalFactor_of_divideFactor hdb] at hretained
  calc memRead t' (pixelAddr s.dst.toNat t.outW.toNat r c k)
      = selectSamples s.height.toNat s.width.toNat (legalFactor a) (legalFactor b)
          (samplesAt s' s.src.toNat s.width.toNat) r c k := by
        have hread := h'.memRead_reported (r := r) (c := c) (by rwa [houtH]) (by rwa [houtW]) hk
        rwa [houtW, hsrc, hdst, hH, hW] at hread
    _ = selectSamples s.height.toNat s.width.toNat (legalFactor a) (legalFactor b)
          (samplesAt s s.src.toNat s.width.toNat) r c k :=
        selectSamples_congr_retained hheight hwidth h.factor_pos hrow c hretained
    _ = memRead t (pixelAddr s.dst.toNat t.outW.toNat r c k) := (h.memRead_reported hr hc hk).symm

/-- Settles O42: with both factors 1 the selection is the nearest position of the source, and with even sizes, where
nothing is padded, the position itself. -/
theorem fullSamplingIsAPaddedCopy : Obligations.FullSamplingIsAPaddedCopy := by
  rintro s t _ _ rfl rfl ht h0
  have h := completed_of_status_zero ht h0
  have hfactor : legalFactor 4 = 1 := rfl
  refine ⟨?_, fun r c k hr hc hk => ?_, fun hH hW j hj => ?_⟩
  · rw [h.bytes, reportedCount, hfactor, sampleCount_full]
  · rw [h.memRead_padded hr hc hk, hfactor, selectSamples_full _ _ hr]
    rfl
  · have heH : evenUp s.height.toNat = s.height.toNat := by rw [evenUp, hH, Nat.add_zero]
    have heW : evenUp s.width.toNat = s.width.toNat := by rw [evenUp, hW, Nat.add_zero]
    have hpix : j / 3 < s.width.toNat * s.height.toNat := by
      rw [Nat.mul_assoc, Nat.mul_comm s.height.toNat] at hj
      omega
    have hrow : j / 3 / s.width.toNat < s.height.toNat := Nat.div_lt_of_lt_mul hpix
    obtain ⟨-, hwidth, -⟩ := h.legal
    have hcol := Nat.mod_lt (j / 3) hwidth
    rw [h.memRead_dest (by rwa [heH, heW, ← Nat.mul_assoc]), hfactor, heW, selectSamples_full _ _ (heH.symm ▸ hrow),
      Nat.min_eq_left (by omega), Nat.min_eq_left (by omega), samplesAt, pixelAddr_of_offset]

/-- Settles O43: with `db` = 0 both rows of a pair have one selection. -/
theorem zeroSecondRowDuplicatesChroma : Obligations.ZeroSecondRowDuplicatesChroma := by
  intro a s t i c k ht h0 hi hc hk
  have h := completed_of_status_zero ht h0
  rw [h.memRead_reported hi hc (by omega), h.memRead_reported (by omega) hc (by omega),
    selectSamples_chroma (by omega), selectSamples_chroma (by omega), legalFactor_of_divideFactor (a := 0) rfl,
    rowSel_pair]

/-- Settles O44: the padded row and column have the selection of the row above and of the column before. -/
theorem paddingRepeatsTheLastRowAndColumn : Obligations.PaddingRepeatsTheLastRowAndColumn := by
  rintro a b s t _ _ rfl rfl ht h0
  have h := completed_of_status_zero ht h0
  refine ⟨fun hodd c k hc hk => ?_, fun hodd r k hr hk => ?_⟩
  · have hrows : evenUp s.height.toNat = s.height.toNat + 1 := by rw [evenUp, hodd]
    rw [h.memRead_padded (by omega) hc hk, h.memRead_padded (by omega) hc hk, selectSamples_padded_row hodd]
  · have hcols : evenUp s.width.toNat = s.width.toNat + 1 := by rw [evenUp, hodd]
    rw [h.memRead_padded hr (by omega) hk, h.memRead_padded hr (by omega) hk,
      selectSamples_padded_col hodd _ (h.rowSel_factor_legal hr)]

/-- Settles O45: the factor of a source row is the one that R74 selects its columns with. -/
theorem chromaIsConstantOnBlocks : Obligations.ChromaIsConstantOnBlocks := by
  intro a b da db s t r c c' k hda hdb ht h0 hr hc hc' hk hblock
  have h := completed_of_status_zero ht h0
  have hrow : r < t.outH.toNat := by
    rw [h.outH]
    exact Nat.lt_add_right _ hr
  have hzero : b = 0 ↔ db = 0 := by
    have := (divideFactor_eq_some_iff b db).mp hdb
    omega
  rw [h.memRead_reported hrow hc (by omega), h.memRead_reported hrow hc' (by omega)]
  refine selectSamples_block _ (by omega) ?_
  simp only [hzero] at hblock
  rwa [rowSel_factor _ _ hr, legalFactor_of_divideFactor hda, legalFactor_of_divideFactor hdb]

end Sys2Proof.Machine

/-! PROOFS. The host's memory transactions and what can stop a step (R82, R83, R113; log 7). -/

namespace Sys2Proof.Machine

open Sys2Proof

/-! ### One memory transaction -/

section MemoryTransaction

variable {s : State} {addr : Word} {v : Byte} {rest : List Event}

/-- A host write to a byte of `MEM` (R82). -/
theorem step_mwr_inside (h : s.pending = .mwr addr v :: rest) (ha : addr.toNat < s.cfg.memSize) :
    step s = .next (memWrite addr.toNat v { s with pending := rest }) := by
  rw [step_cons h, perform, hostMemWrite, if_pos ha]

/-- A host write beyond `MEM` (R82; log 7). -/
theorem step_mwr_outside (h : s.pending = .mwr addr v :: rest) (ha : s.cfg.memSize ≤ addr.toNat) :
    step s = .refused (.noSuchByte addr) := by
  rw [step_cons h, perform, hostMemWrite, if_neg (Nat.not_lt.mpr ha)]

/-- A host read of a byte of `MEM` (R83): the events still to come are no part of what is read. -/
theorem step_mrd_inside (h : s.pending = .mrd addr :: rest) (ha : addr.toNat < s.cfg.memSize) :
    step s = .next { s with pending := rest, answers := s.answers ++ [.byte (memRead s addr.toNat)] } := by
  rw [step_cons h, perform, hostMemRead, if_pos ha,
    memRead_congr (s := s) (t := { s with pending := rest }) rfl rfl]

/-- A host read beyond `MEM` (R83; log 7). -/
theorem step_mrd_outside (h : s.pending = .mrd addr :: rest) (ha : s.cfg.memSize ≤ addr.toNat) :
    step s = .refused (.noSuchByte addr) := by
  rw [step_cons h, perform, hostMemRead, if_neg (Nat.not_lt.mpr ha)]

end MemoryTransaction

/-- A byte write is seen at its own address only (R25, R82). -/
theorem memSameOutside_memWrite (a : Nat) (v : Byte) (s : State) : MemSameOutside a 1 s (memWrite a v s) := by
  intro x hx
  rw [memRead_memWrite, if_neg (by omega)]

/-- Settles O18. -/
theorem hostMemoryReadAnswersTheByte : Obligations.HostMemoryReadAnswersTheByte := fun _ _ _ h =>
  ⟨step_mrd_inside h, step_mrd_outside h⟩

/-- Settles O17: the next state is `memWrite` of the state with the event taken off. -/
theorem hostMemoryWriteStoresTheByte : Obligations.HostMemoryWriteStoresTheByte := by
  refine fun s addr v rest h => ⟨fun ha => ⟨_, step_mwr_inside h ha, rfl, ?_, ?_⟩, step_mwr_outside h⟩
  · rw [memRead_memWrite, if_pos rfl]
  · exact memSameOutside_memWrite addr.toNat v { s with pending := rest }

/-! ### What stops a step -/

/-- A write to `CMD` finishes, whether its word is a command or reserved (R94, R113). -/
theorem writeCmd_next (w : Word) (s : State) : ∃ t, writeCmd w s = .next t := by
  cases hd : decode w with
  | ok i =>
    rw [writeCmd_of_ok hd]
    exact exec_next i s
  | error e => exact ⟨_, writeCmd_of_error hd s⟩

/-- Settles O10, by the kind of the event: a memory transaction turns on its address, and every other event finishes,
a command by `exec_next`. -/
theorem stepStopsOnlyOutsideMemory : Obligations.StepStopsOnlyOutsideMemory := by
  intro s
  cases hp : s.pending with
  | nil => exact Or.inl ⟨s, step_nil hp⟩
  | cons e rest =>
    cases e with
    | wr i v =>
      by_cases hi : i = 4
      · subst hi
        rw [step_writeCmd hp]
        exact Or.inl (writeCmd_next v _)
      · exact Or.inl ⟨_, step_regWrite hp hi⟩
    | mwr addr v =>
      obtain ha | ha := Nat.lt_or_ge addr.toNat s.cfg.memSize
      · exact Or.inl ⟨_, step_mwr_inside hp ha⟩
      · exact Or.inr ⟨addr, v, rest, ha, Or.inl rfl, step_mwr_outside hp ha⟩
    | mrd addr =>
      obtain ha | ha := Nat.lt_or_ge addr.toNat s.cfg.memSize
      · exact Or.inl ⟨_, step_mrd_inside hp ha⟩
      · exact Or.inr ⟨addr, 0, rest, ha, Or.inr rfl, step_mrd_outside hp ha⟩
    | rd i => exact Or.inl ⟨_, step_cons hp⟩
    | reset => exact Or.inl ⟨_, step_cons hp⟩
    | powerOn => exact Or.inl ⟨_, step_cons hp⟩

end Sys2Proof.Machine

/-! PROOFS. Command errors: the whole effect of raising one (R86, R95), and the three sampling errors (R88 to R90). -/

namespace Sys2Proof.Machine

open Sys2Proof

/-! ### Raising a command error -/

/-- The number a command error is raised with, as the table of R86 lists it. -/
theorem errCode_eq_of_row {e : CmdErr} {code : Nat}
    (h : e = .specMax ∧ code = 1 ∨ e = .specNeg ∧ code = 2 ∨ e = .specThree ∧ code = 3 ∨ e = .dim ∧ code = 4 ∨
      e = .addr ∧ code = 5 ∨ e = .overlap ∧ code = 6 ∨ e = .opcode ∧ code = 7) : errCode e = code := by
  rcases h with ⟨rfl, rfl⟩ | ⟨rfl, rfl⟩ | ⟨rfl, rfl⟩ | ⟨rfl, rfl⟩ | ⟨rfl, rfl⟩ | ⟨rfl, rfl⟩ | ⟨rfl, rfl⟩ <;> rfl

theorem cmdError_memSame (e : CmdErr) (s : State) : MemSame s (cmdError e s) := fun a =>
  memRead_congr (cmdError_mem e s) (cmdError_powerUps e s) a

/-- A command error is a write of the four RO registers and nothing more (R95). -/
theorem cmdError_eq_setResults (e : CmdErr) (s : State) : cmdError e s = setResults (errStatus e) 0 0 0 s := rfl

/-- The error before a command does not reach it: commands do not look at the RO registers (R17, R98). -/
theorem exec_cmdError (i : Instr) (e : CmdErr) (s : State) : exec i (cmdError e s) = exec i s := by
  rw [cmdError_eq_setResults]
  exact commandsIgnoreTheResultRegisters i s _ _ _ _

/-- Settles O22: the four RO registers take the error, the frame of `cmdError` is everything else, and no command
looks at those four. -/
theorem raiseCmdErrorEffects : Obligations.RaiseCmdErrorEffects := by
  intro e s code hrow
  have hstatus : (cmdError e s).status = BitVec.ofNat 32 code := by
    rw [cmdError_status, errStatus, errCode_eq_of_row hrow]
  exact ⟨hstatus, cmdError_bytes e s, cmdError_outH e s, cmdError_outW e s, cmdError_memSame e s, cmdError_same e s,
    fun i => exec_cmdError i e s⟩

/-! ### The sampling errors -/

section SamplingErrors

variable {a b : Int}

/-- Check 1 of R60 comes before the others (R88). -/
theorem samplingCheck_of_above_four (hmax : 4 < a ∨ 4 < b) : samplingCheck a b = some .specMax := by
  rw [samplingCheck, if_pos hmax]

/-- Check 2 of R60, where check 1 did not fire (R89). -/
theorem samplingCheck_of_too_small (hmax : ¬(4 < a ∨ 4 < b)) (hneg : a ≤ 0 ∨ b < 0) :
    samplingCheck a b = some .specNeg := by
  rw [samplingCheck, if_neg hmax, if_pos hneg]

/-- Check 3 of R60, where neither check before it fired (R90). -/
theorem samplingCheck_of_three (hmax : ¬(4 < a ∨ 4 < b)) (hneg : ¬(a ≤ 0 ∨ b < 0)) (hthree : a = 3 ∨ b = 3) :
    samplingCheck a b = some .specThree := by
  rw [samplingCheck, if_neg hmax, if_neg hneg, if_pos hthree]

/-- `SUBSAMPLE` fails with the error of its pair before it looks at its arrays (R96). -/
theorem exec_subsample_of_samplingCheck_some {e : CmdErr} (h : samplingCheck a b = some e) (s : State) :
    exec (.subsample a b) s = .next (failedWith (errCode e) s) := by
  have hcheck : commandCheck (.subsample a b) s = some e := by simp only [commandCheck, subsampleCheck, h]
  exact exec_of_check_some hcheck

end SamplingErrors

/-- Settles O24: each clause is the check of R60 that decides first, with its code. -/
theorem subsampleSamplingErrors : Obligations.SubsampleSamplingErrors := by
  intro a b s
  refine ⟨fun hmax => ?_, fun ⟨hmax, hneg⟩ => ?_, fun ⟨hmax, hneg, hthree⟩ => ?_⟩
  · exact exec_subsample_of_samplingCheck_some (samplingCheck_of_above_four hmax) s
  · exact exec_subsample_of_samplingCheck_some (samplingCheck_of_too_small hmax hneg) s
  · exact exec_subsample_of_samplingCheck_some (samplingCheck_of_three hmax hneg hthree) s

end Sys2Proof.Machine

/-! PROOFS. The events around a program: the issue of a table row's word (log 1, log 17), the idle step (R10, R105), and
power-on (R102 to R104). -/

namespace Sys2Proof.Machine

open Sys2Proof

/-- A table row holds a command exactly when its word decodes to it. -/
theorem decodeTableWord_eq_some_iff (nbits w : Nat) (i : Instr) :
    decodeTableWord nbits w = some i ↔ decode (tableWord nbits w) = .ok i := by
  cases h : decode (tableWord nbits w) <;> simp [decodeTableWord, h]

/-- The step from an issued row is the write of its word to `CMD`, at the state the row was issued in. -/
theorem step_withFetchWord (s : State) (nbits w : Nat) :
    step (s.withFetchWord nbits w) = writeCmd (tableWord nbits w) s :=
  step_writeCmd (withFetchWord_pending s nbits w)

/-- Settles O8: the issued event is the `CMD` write of the very word the decoder reads the row as. -/
theorem fetchWordRunsTheTableInstruction : Obligations.FetchWordRunsTheTableInstruction := by
  intro s w i hrow
  have hdecode := (decodeTableWord_eq_some_iff 32 w i).mp hrow
  rw [step_withFetchWord, writeCmd_of_ok hdecode]

/-- Settles O9. -/
theorem stepWithoutEventsIsIdle : Obligations.StepWithoutEventsIsIdle := fun _ => step_nil

/-- An address nothing has written since power-on reads as its power-on byte (R104; log 4). -/
theorem memRead_of_lookup_none {s : State} {a : Nat} (h : s.mem.lookup a = none) :
    memRead s a = Config.powerOnByte s.powerUps a := by
  simp only [memRead, h]

/-- No byte has been written since a power-on, so each is the free byte of the new power-on count (R104; log 5). -/
theorem memRead_powerOnReset (s : State) (a : Nat) :
    memRead (powerOnReset s) a = Config.powerOnByte (s.powerUps + 1) a :=
  memRead_of_lookup_none (congrArg (Memory.lookup · a) (powerOnReset_mem s))

/-- Settles O20: the step is `powerOnReset`, which clears the register file and empties the list of written bytes. -/
theorem powerOnLeavesFreeBytes : Obligations.PowerOnLeavesFreeBytes := by
  intro s rest hp
  refine ⟨powerOnReset { s with pending := rest }, step_cons hp, ?registers, ?bytes, rfl, rfl⟩
  case registers => exact regRead_of_registers_zero rfl rfl rfl rfl rfl rfl rfl rfl
  case bytes => exact fun a => memRead_powerOnReset { s with pending := rest } a

end Sys2Proof.Machine
